-- ==== Sys2Proof/Word.lean ====
section
/-!
DEFINITION. The words of the CAN signal block: registers, bytes, arbitration IDs and timestamps
(10_state.md rules R21, R25, R26, R29).
-/

namespace Sys2Proof

/-- A 32-bit register, command word or bus datum (R25, R90). -/
abbrev Word := BitVec 32

/-- A frame's data byte, or one byte lane of a register (R28, R72). -/
abbrev Byte := BitVec 8

/-- An 11-bit arbitration ID (R26). -/
abbrev CanId := BitVec 11

/-- A timestamp in milliseconds; the width P_TS_WIDTH is fixed at 32 (R12, R29). -/
abbrev Time := BitVec 32

end Sys2Proof
end

