-- ==== Sys2Proof/Config.lean ====
section
/-!
DEFINITION. The build-time parameters (00_scope.md rules R10-R12) and what makes a choice of them
legal. They are fixed for a machine and are no state of the block (10_state.md R53 (a)).
The spec leaves no result open, so there is no opaque free value here.
-/

namespace Sys2Proof

/-- The level at which the reset input is active (R12, R270). -/
inductive Polarity where
  | activeHigh
  | activeLow
deriving DecidableEq, Repr

/-- P_RESET_KIND: "the reset input's polarity and whether it is synchronous" (R12). -/
structure ResetKind where
  polarity : Polarity
  synchronous : Bool
deriving DecidableEq, Repr

/-- P_BUS: which bus protocol (R12, R71). The spec names none, so a protocol is a number in a list of the
user's own (DESIGN CHOICE of the form, assumption log 10, safe). -/
abbrev BusProtocol := Nat

/-- The parameters of 00_scope.md R10 and the interface parameters of R12, "each an argument of the
model"; P_TS_WIDTH is fixed at 32 and is the width of `Time`. -/
structure Config where
  /-- P_ID_SPEED -/
  idSpeed : CanId
  /-- P_OFF_SPEED -/
  offSpeed : Nat
  /-- P_ID_RPM -/
  idRpm : CanId
  /-- P_OFF_RPM -/
  offRpm : Nat
  /-- P_ID_THROTTLE -/
  idThrottle : CanId
  /-- P_OFF_THROTTLE -/
  offThrottle : Nat
  /-- P_ID_ENGINE -/
  idEngine : CanId
  /-- P_OFF_ENGINE -/
  offEngine : Nat
  /-- P_ID_FAULT -/
  idFault : CanId
  /-- P_OFF_FAULT -/
  offFault : Nat
  /-- P_SPIKE: rpm-spike threshold -/
  spike : Nat
  /-- P_SPEED_MAX: speed ceiling in km/h -/
  speedMax : Nat
  /-- P_TIMEOUT: frequency timeout in ms -/
  timeout : Nat
  /-- P_HIST_CAP: ring-buffer capacity -/
  histCap : Nat
  /-- P_MIN_SAMPLES: minimum held samples for the statistics test -/
  minSamples : Nat
  /-- P_SIGMA: sigma multiplier -/
  sigma : Nat
  /-- P_FT_CAP: frequency-table capacity -/
  ftCap : Nat
  /-- P_BASE_ADDR: the window's base address on the host bus (R12, R70) -/
  baseAddr : Nat
  /-- P_CMD_LATENCY: the bound on one command's busy window, counted in the host accesses that land
  in it (R12, R290; DESIGN CHOICE of the unit, assumption log 6, safe) -/
  cmdLatency : Nat
  /-- P_BUS: the bus protocol (R12). "The register transaction" is the level of the model (R5), so no rule
  reads it. -/
  bus : BusProtocol
  /-- P_RESET_KIND (R12). A hardware reset stands in the model as an event, whatever its input's kind
  (R270), so no rule reads it. -/
  resetKind : ResetKind
deriving DecidableEq, Repr

/-- The five recognised IDs of the decoder's static mapping (R10, R110). -/
def Config.knownIds (c : Config) : List CanId :=
  [c.idSpeed, c.idRpm, c.idThrottle, c.idEngine, c.idFault]

/-- The legal configurations: pairwise distinct IDs (R10), the ranges of R11, and a base address
aligned to 4 KiB (R12, R70). The spec puts no bound on P_CMD_LATENCY's value. -/
abbrev Config.Legal (c : Config) : Prop :=
  c.knownIds.Nodup ∧
  (1 ≤ c.histCap ∧ c.histCap ≤ 32) ∧
  (1 ≤ c.minSamples ∧ c.minSamples ≤ c.histCap) ∧
  (1 ≤ c.ftCap ∧ c.ftCap ≤ 16) ∧
  1 ≤ c.sigma ∧
  c.spike ≤ 65535 ∧
  c.speedMax ≤ 65535 ∧
  c.timeout ≤ 4294967295 ∧
  c.offSpeed ≤ 6 ∧
  c.offRpm ≤ 6 ∧
  c.offThrottle ≤ 7 ∧
  c.offEngine ≤ 7 ∧
  c.offFault ≤ 7 ∧
  c.baseAddr % 4096 = 0

/-- A legal configuration. R11: "The model gives no meaning to any other configuration", so the type
of a machine's parameters holds no other one (DESIGN CHOICE of the form, assumption log 7, safe). -/
abbrev Build := { c : Config // c.Legal }

/-- The defaults of the table of R10. The interface parameters have none there: 0 and 255 for P_BASE_ADDR
and P_CMD_LATENCY are the model's (DESIGN CHOICE, assumption log 6 and 7, unsafe for a claim about that
one value), and so are protocol 0 and an active-high synchronous reset (DESIGN CHOICE, assumption log 10,
safe: nothing reads them). -/
def Config.default : Config where
  idSpeed := 0x100
  offSpeed := 0
  idRpm := 0x101
  offRpm := 0
  idThrottle := 0x102
  offThrottle := 0
  idEngine := 0x103
  offEngine := 0
  idFault := 0x104
  offFault := 0
  spike := 500
  speedMax := 200
  timeout := 5000
  histCap := 32
  minSamples := 10
  sigma := 3
  ftCap := 16
  baseAddr := 0
  cmdLatency := 255
  bus := 0
  resetKind := ⟨.activeHigh, true⟩

/-- The build of the default parameters (R10). -/
def Build.default : Build := ⟨Config.default, by decide⟩

end Sys2Proof
end

