-- ==== Sys2Proof/Syntax.lean ====
section
/-!
DEFINITION. Syntax: the command words as instructions (30_encoding.md R92), the host's bus accesses
(20_memory.md R71), what the outside world does to the block, the names of the registers
(10_state.md R25) and the lines of the host assembly (30_encoding.md R100-R103).
-/

namespace Sys2Proof

/-- One constructor per row of spec/opcode_table.json (R92). Only EXTRACT_U and EXTRACT_S carry
operands: FSTART and FLEN as unsigned integers (R93). The ignored bits of a word are no part of the
instruction: two words that differ only there are the same command (R95). -/
inductive Instr where
  | nop
  | frameCycle
  | decode
  | getState
  | decoderReset
  | trackObserve
  | histRecord
  | histEvaluate
  | extractU (start len : Nat)
  | extractS (start len : Nat)
  | engineEval
  | reservedB
  | reservedC
  | reservedD
  | reservedE
  | softReset
deriving DecidableEq, Repr

/-- A host access (R71): its offset within the window, its size in bytes and, for a write, its data.
Only a supported access's data are ever looked at, and those are 32 bits (R73, R77). -/
inductive Access where
  | read (off size : Nat)
  | write (off size : Nat) (data : Word)
deriving DecidableEq, Repr

/-- What the outside world does, in order (R4, R51, R270): a host access; the moment at which the
pending command's latency has passed, whose place among the accesses is the draw of R51; a hardware
reset (DESIGN CHOICE of the form, assumption log 5, safe). -/
inductive Input where
  | access (a : Access)
  | latencyElapsed
  | hardwareReset
deriving DecidableEq, Repr

/-- The words of the register window by name (R25), the HIST and FT windows word by word
(R46, R49, R100). -/
inductive Reg where
  | frameId
  | frameDlc
  | frameData0
  | frameData1
  | frameTs
  | arg0
  | cmd
  | status
  | result
  | snapSpeedRpm
  | snapMisc
  | snapTs
  | anomStatus
  | anomTs
  | baseline
  | histStatus
  | histSum
  | histSumsqLo
  | histSumsqHi
  | ftStatus
  | histRS (i : Fin 32)
  | histTS (i : Fin 32)
  | ftId (j : Fin 16)
  | ftLast (j : Fin 16)
  | ftCount (j : Fin 16)
deriving DecidableEq, Repr

/-- A register operand of the host assembly: "An operand may also be a raw offset" (R100). -/
inductive Operand where
  | reg (r : Reg)
  | raw (off : Nat)
deriving DecidableEq, Repr

/-- A line of a host program (R100-R103). The written values stand as the words the line writes. -/
inductive Line where
  | wr (o : Operand) (value : Word)
  | rd (o : Operand)
  | cmd (i : Instr)
  | wait
  | frame (id dlc : Word) (bytes : List Byte) (ts : Word)
  | arg (rpm speed : BitVec 16)
deriving DecidableEq, Repr

end Sys2Proof
end

