-- ==== Sys2Proof/Machine/State.lean ====
section
/-!
DEFINITION. The state of the CAN signal block (10_state.md R20), the state after hardware reset (R52),
and the reasons a step can stop. All of it is plain data.
-/

namespace Sys2Proof.Machine

/-- The live VehicleState VS (R21), and the shape of its snapshot (R34-R36). -/
structure VehicleState where
  speed : BitVec 16
  rpm : BitVec 16
  throttle : BitVec 8
  gear : BitVec 3
  /-- true = on (R21) -/
  engineStatus : Bool
  /-- true = fault (R21) -/
  faultStatus : Bool
  lastUpdate : Time
deriving DecidableEq, Repr

/-- The staged frame F: FRAME_ID, FRAME_DLC, FRAME_DATA0, FRAME_DATA1 and FRAME_TS (R26-R29). -/
structure Frame where
  id : CanId
  dlc : BitVec 4
  data0 : Word
  data1 : Word
  ts : Time
deriving DecidableEq, Repr

/-- The bits of STATUS that are stored (R32). BUSY is not among them: it is 1 exactly while a command
is pending (R51), and reads compute it from State.pending. -/
structure Status where
  cmdIllegal : Bool
  overrun : Bool
  extInvalid : Bool
deriving DecidableEq, Repr

/-- The latest-anomaly record (R37). -/
structure Anomaly where
  has : Bool
  type : BitVec 3
  severity : BitVec 3
  canId : CanId
  ts : Time
deriving DecidableEq, Repr

/-- The baseline of check 1: PREV_RPM and BASELINE_VALID (R39). -/
structure Baseline where
  prevRpm : BitVec 16
  valid : Bool
deriving DecidableEq, Repr

/-- A HistorySample (R40). -/
structure Sample where
  rpm : BitVec 16
  speed : BitVec 16
  ts : Time
deriving DecidableEq, Repr

/-- The ring buffer: HIST[0..31], HIST_HEAD and HIST_COUNT (R40, R41). -/
structure History where
  slots : Vector Sample 32
  head : BitVec 5
  count : BitVec 6
deriving DecidableEq, Repr

/-- A MessageTrackEntry (R47). -/
structure TrackEntry where
  id : CanId
  lastSeen : Time
  count : Word
deriving DecidableEq, Repr

/-- The frequency table: FT[0..15] and FT_COUNT (R47, R48). -/
structure FreqTable where
  entries : Vector TrackEntry 16
  count : BitVec 5
deriving DecidableEq, Repr

/-- A command in progress (R51): its word, and how many host accesses have landed since it became
pending (the model's own count, the unit of P_CMD_LATENCY; assumption log 6). -/
structure Pending where
  word : Word
  landed : Nat
deriving DecidableEq, Repr

/-- The whole state: the elements of R20 (a)-(i), and after them the model's own three fields (the
machine's fixed parameters, what the outside world still does, what the host's reads returned), which
are no state of the block (R53; assumption log 5, 7, 8). -/
structure State where
  /-- (a) the live VehicleState (R21) -/
  vs : VehicleState
  /-- (b) the staged frame registers (R26-R29) -/
  frame : Frame
  /-- (b) ARG0 (R30) -/
  arg0 : Word
  /-- (c) the stored bits of STATUS (R32) -/
  status : Status
  /-- (c) RESULT (R33) -/
  result : Word
  /-- (d) the snapshot registers, as the VehicleState they copy (R34-R36) -/
  snap : VehicleState
  /-- (e) the latest-anomaly record (R37) -/
  anomaly : Anomaly
  /-- (f) PREV_RPM and BASELINE_VALID (R39) -/
  baseline : Baseline
  /-- (g) HIST, HIST_HEAD and HIST_COUNT (R40, R41) -/
  hist : History
  /-- (h) FT and FT_COUNT (R47, R48) -/
  track : FreqTable
  /-- (i) the busy state: the pending command, or none while idle (R51) -/
  pending : Option Pending
  /-- the build-time parameters (R10); no step changes them -/
  build : Build
  /-- what the outside world still does, next first -/
  inputs : List Input
  /-- the values the host's reads returned, newest first -/
  answers : List Word
deriving DecidableEq, Repr

/-- The parameters of the machine a state belongs to. -/
abbrev State.cfg (s : State) : Config := s.build.val

/-- STATUS.BUSY (R32, R51). -/
abbrev State.busy (s : State) : Bool := s.pending.isSome

/-- A step of the block never stops with a fault: "No command, register access or input value stops the
block" (60_exceptions.md R250). So nothing raises a fault and the type has no constructor. Where the
spec says that a MODEL faults (R94, R120, 93 I18), this model has the hardware's stated effect and
Safety.lean names the case (DESIGN CHOICE, assumption log 1, 2, 4 and 16, unsafe). -/
inductive Fault
deriving DecidableEq, Repr

/-- Why a step has no meaning. -/
inductive Refusal where
  /-- Raised only by an arm of exec whose instruction has no meaning yet; every arm has one, so nothing
  raises it. Safe: it stops. -/
  | notModelled (mnemonic : String)
deriving DecidableEq, Repr

/-- The zero VehicleState: what `reset()` of the decoder leaves (R52). -/
def VehicleState.zero : VehicleState := ⟨0, 0, 0, 0, false, false, 0⟩

/-- The record that holds no anomaly (R52, R199). -/
def Anomaly.none : Anomaly := ⟨false, 0, 0, 0, 0⟩

/-- No baseline (R52). -/
def Baseline.none : Baseline := ⟨0, false⟩

/-- A slot that nothing has written (R52). -/
def Sample.zero : Sample := ⟨0, 0, 0⟩

/-- The empty ring buffer (R52). -/
def History.empty : History := ⟨Vector.replicate 32 Sample.zero, 0, 0⟩

/-- An entry that nothing has written (R52). -/
def TrackEntry.zero : TrackEntry := ⟨0, 0, 0⟩

/-- The empty frequency table (R52). -/
def FreqTable.empty : FreqTable := ⟨Vector.replicate 16 TrackEntry.zero, 0⟩

/-- The machine right after hardware reset: every element at the value of R52, the default parameters
of R10, and an outside world that has done and will do nothing (DESIGN CHOICE, assumption log 5, 7
and 8). -/
def State.reset : State where
  vs := VehicleState.zero
  frame := ⟨0, 0, 0, 0, 0⟩
  arg0 := 0
  status := ⟨false, false, false⟩
  result := 0
  snap := VehicleState.zero
  anomaly := Anomaly.none
  baseline := Baseline.none
  hist := History.empty
  track := FreqTable.empty
  pending := .none
  build := Build.default
  inputs := []
  answers := []

end Sys2Proof.Machine
end

