-- ==== Sys2Proof/Machine/Ops.lean ====
section
/-!
DEFINITION. The shared operations: completing a command (44_control.md R231), hardware reset
(70_reset_and_hazards.md R270) and SOFT_RESET's effect (44_control.md R232). The block takes no
exception and returns from none (60_exceptions.md R250, R254), so no operation does either; what
reports an error is `State.finish`.
-/

namespace Sys2Proof.Machine

/-- The end of every command (R231): back to idle, RESULT written, CMD_ILLEGAL and EXT_INVALID written
afresh, OVERRUN kept. -/
def State.finishWith (s : State) (illegal invalid : Bool) (r : Word) : State :=
  { s with
    pending := .none
    status := { s.status with cmdIllegal := illegal, extInvalid := invalid }
    result := r }

/-- The end of a command that sets neither CMD_ILLEGAL nor EXT_INVALID (R231). -/
def State.finish (s : State) (r : Word) : State := s.finishWith false false r

/-- Hardware reset: every element of the block to its value of R52, a pending command abandoned (R270).
The machine's parameters and the outside world are no part of the block and stay (DESIGN CHOICE,
assumption log 18, safe). -/
def State.hardwareReset (s : State) : State :=
  { State.reset with build := s.build, inputs := s.inputs, answers := s.answers }

/-- SOFT_RESET's effect: as hardware reset, but the staged frame, ARG0 and STATUS.OVERRUN stay
(R232). -/
def State.softReset (s : State) : State :=
  { s.hardwareReset with
    frame := s.frame
    arg0 := s.arg0
    status := { State.reset.status with overrun := s.status.overrun } }

end Sys2Proof.Machine
end

