-- ==== Sys2Proof/Machine/Control.lean ====
section
/-!
DEFINITION. The control commands (44_control.md): NOP, SOFT_RESET and the reserved opcodes.
-/

namespace Sys2Proof.Machine

/-- NOP (R230). -/
def execNop (s : State) : Host.Outcome State Fault Refusal := .next (s.finish 0)

/-- The effect of a reserved opcode: RESULT 0 and CMD_ILLEGAL (R233). R94 and R233 add that a model
faults on it; this one has the hardware's effect (DESIGN CHOICE, assumption log 1, unsafe). -/
def State.reserved (s : State) : State := s.finishWith true false 0

/-- Opcode 0xB (R233). -/
def execReservedB (s : State) : Host.Outcome State Fault Refusal := .next s.reserved

/-- Opcode 0xC (R233). -/
def execReservedC (s : State) : Host.Outcome State Fault Refusal := .next s.reserved

/-- Opcode 0xD (R233). -/
def execReservedD (s : State) : Host.Outcome State Fault Refusal := .next s.reserved

/-- Opcode 0xE (R233). -/
def execReservedE (s : State) : Host.Outcome State Fault Refusal := .next s.reserved

/-- SOFT_RESET (R232). -/
def execSoftReset (s : State) : Host.Outcome State Fault Refusal := .next (s.softReset.finish 0)

end Sys2Proof.Machine
end

