-- ==== Sys2Proof/Machine/Flags.lean ====
section
/-!
DEFINITION. Every computation of flag bits: the words of STATUS (10_state.md R32), of ANOM_STATUS (R37),
and the fields of RESULT for each command that reports bits in it (40_decoder.md R110, 41_tracker.md
R156, 42_statistics.md R178, 43_engine.md R203).
-/

namespace Sys2Proof.Machine

/-- STATUS as it reads: [0] BUSY, [1] CMD_ILLEGAL, [2] OVERRUN, [3] EXT_INVALID, the rest 0 (R32). -/
def statusWord (busy : Bool) (st : Status) : Word :=
  0#28 ++ BitVec.ofBool st.extInvalid ++ BitVec.ofBool st.overrun ++ BitVec.ofBool st.cmdIllegal ++
    BitVec.ofBool busy

/-- ANOM_STATUS as it reads: [0] HAS_ANOMALY, [6:4] TYPE, [10:8] SEVERITY, [26:16] CAN_ID, the rest 0
(R37). -/
def anomStatusWord (a : Anomaly) : Word :=
  0#5 ++ a.canId ++ 0#5 ++ a.severity ++ 0#1 ++ a.type ++ 0#3 ++ BitVec.ofBool a.has

/-- Three flag bits as {b2, b1, b0}. -/
def threeBits (b2 b1 b0 : Bool) : BitVec 3 := BitVec.ofBool b2 ++ BitVec.ofBool b1 ++ BitVec.ofBool b0

/-- The decode bits {MALFORMED, RECOGNISED, APPLIED} (R110). -/
def decodeBits (malformed recognised applied : Bool) : BitVec 3 :=
  threeBits malformed recognised applied

/-- RESULT of DECODE: the decode bits at [2:0] (R110). -/
def decodeResult (bits : BitVec 3) : Word := 0#29 ++ bits

/-- RESULT of TRACK_OBSERVE: {UNTRACKED, code[1:0]} at [2:0] (R156). -/
def trackResult (untracked : Bool) (code : BitVec 2) : Word := 0#29 ++ BitVec.ofBool untracked ++ code

/-- RESULT of HIST_EVALUATE: {ZERO_VARIANCE, INSUFFICIENT, FLAGGED} at [2:0] (R178). -/
def statResult (zeroVariance insufficient flagged : Bool) : Word :=
  0#29 ++ threeBits zeroVariance insufficient flagged

/-- RESULT of a cycle: the decode bits at [18:16], SEVERITY at [10:8], TYPE at [6:4] and HAS at [0], the
rest 0 (R203). -/
def cycleResult (decodeBits : BitVec 3) (a : Anomaly) : Word :=
  0#13 ++ decodeBits ++ 0#5 ++ a.severity ++ 0#1 ++ a.type ++ 0#3 ++ BitVec.ofBool a.has

end Sys2Proof.Machine
end

