-- ==== Sys2Proof/Machine/Operands.lean ====
section
/-!
DEFINITION. Every operand a command reads: the bytes, the 16-bit fields and the bit fields of the
staged frame (10_state.md R28, 20_memory.md R83, 40_decoder.md R111, R119-R121), the halves of ARG0
(10_state.md R30), and the integer helpers of 00_scope.md R7.
-/

namespace Sys2Proof.Machine

/-- F.byte[i], for i = 0..7 (R28). -/
def Frame.byte (f : Frame) (i : Nat) : Byte :=
  if i < 4 then f.data0.extractLsb' (8 * i) 8 else f.data1.extractLsb' (8 * (i - 4)) 8

/-- The frame word W (R119): FRAME_DATA0 and FRAME_DATA1 read as one little-endian 64-bit word (R72).
Laws/Operands.lean proves it the sum of R119. -/
def Frame.word (f : Frame) : BitVec 64 := f.data1 ++ f.data0

/-- The 2-byte value at data byte o, low byte first (R83, R111). -/
def Frame.raw16 (f : Frame) (o : Nat) : Nat := (f.byte o).toNat + 256 * (f.byte (o + 1)).toNat

/-- F.dlc as a number. -/
def Frame.len (f : Frame) : Nat := f.dlc.toNat

/-- A frame whose DLC is 9..15 is malformed (R27, R110). -/
def Frame.malformed (f : Frame) : Bool := decide (8 < f.len)

/-- A field (start, len) is valid (R120). -/
def Frame.fieldValid (f : Frame) (start len : Nat) : Bool :=
  decide (f.len ≤ 8) && decide (1 ≤ len) && decide (len ≤ 32) && decide (start + len ≤ 8 * f.len)

/-- ExtractU(start, len) (R121). -/
def Frame.extractU (f : Frame) (start len : Nat) : Nat := f.word.toNat / 2 ^ start % 2 ^ len

/-- sext_32 of a value v of width len (R7): the pattern of v - 2^len when its top bit is 1, and of v
otherwise. -/
def sext32 (len v : Nat) : Word :=
  if v / 2 ^ (len - 1) % 2 = 1 then BitVec.ofInt 32 ((v : Int) - 2 ^ len) else BitVec.ofNat 32 v

/-- ExtractS(start, len) (R121). -/
def Frame.extractS (f : Frame) (start len : Nat) : Word := sext32 len (f.extractU start len)

/-- ARG_RPM = ARG0[15:0] (R30). -/
def State.argRpm (s : State) : BitVec 16 := s.arg0.extractLsb' 0 16

/-- ARG_SPEED = ARG0[31:16] (R30). -/
def State.argSpeed (s : State) : BitVec 16 := s.arg0.extractLsb' 16 16

/-- abs(a - b) of two unsigned values as integers (R7, R193). -/
def absDiff (a b : BitVec 16) : Nat := ((a.toNat : Int) - (b.toNat : Int)).natAbs

/-- sat_32(x) = min(x, 2^32 - 1) (R7). -/
def sat32 (x : Nat) : Word := BitVec.ofNat 32 (min x 4294967295)

/-- The elapsed time (now - then) mod 2^32 (R150). -/
def elapsed (now lastSeen : Time) : Nat := (now - lastSeen).toNat

end Sys2Proof.Machine
end

