-- ==== Sys2Proof/Machine/Decoder.lean ====
section
/-!
DEFINITION. The signal decoder and the bit-field extractor (40_decoder.md): DECODE, GET_STATE,
DECODER_RESET, EXTRACT_U and EXTRACT_S.
-/

namespace Sys2Proof.Machine

/-- The five decode routines (R112-R116). -/
inductive Routine where
  | speed
  | rpm
  | throttle
  | engine
  | fault
deriving DecidableEq, Repr

/-- The static mapping from ID to routine (R110-R116); none for an unrecognised ID. The five IDs are
distinct (R10), so the order of the questions does not matter. -/
def routineOf (c : Config) (id : CanId) : Option Routine :=
  if id = c.idSpeed then some .speed
  else if id = c.idRpm then some .rpm
  else if id = c.idThrottle then some .throttle
  else if id = c.idEngine then some .engine
  else if id = c.idFault then some .fault
  else none

/-- The first data byte o of a routine's field (R112-R116). -/
def Routine.offset (c : Config) : Routine → Nat
  | .speed => c.offSpeed
  | .rpm => c.offRpm
  | .throttle => c.offThrottle
  | .engine => c.offEngine
  | .fault => c.offFault

/-- The width w of a routine's field in bytes (R112-R116). -/
def Routine.width : Routine → Nat
  | .speed => 2
  | .rpm => 2
  | .throttle => 1
  | .engine => 1
  | .fault => 1

/-- The VehicleState fields a routine names, written from the field at data byte o (R112-R116). -/
def Routine.write (f : Frame) (o : Nat) (vs : VehicleState) : Routine → VehicleState
  | .speed => { vs with speed := BitVec.ofNat 16 (f.raw16 o / 10) }
  | .rpm => { vs with rpm := BitVec.ofNat 16 (f.raw16 o / 4) }
  | .throttle => { vs with throttle := BitVec.ofNat 8 ((f.byte o).toNat * 100 / 255) }
  | .engine =>
    { vs with engineStatus := (f.byte o).getLsbD 0, gear := (f.byte o).extractLsb' 1 3 }
  | .fault => { vs with faultStatus := (f.byte o).getLsbD 0 }

/-- What Decode(F, VS) answers (R110). -/
structure Decoded where
  vs : VehicleState
  applied : Bool
  recognised : Bool
  malformed : Bool
deriving DecidableEq, Repr

/-- A routine writes only if o + w <= F.dlc <= 8, and then also stamps last_update (R110, R111). -/
def Routine.applies (c : Config) (f : Frame) (r : Routine) : Bool :=
  !f.malformed && decide (r.offset c + r.width ≤ f.len)

/-- Decode(F, VS) (R110, R111). -/
def decodeFrame (c : Config) (f : Frame) (vs : VehicleState) : Decoded :=
  match routineOf c f.id with
  | none => ⟨vs, false, false, f.malformed⟩
  | some r =>
    if r.applies c f then
      ⟨{ r.write f (r.offset c) vs with lastUpdate := f.ts }, true, true, f.malformed⟩
    else ⟨vs, false, true, f.malformed⟩

/-- The decode bits of RESULT (R110). -/
def Decoded.bits (d : Decoded) : BitVec 3 := decodeBits d.malformed d.recognised d.applied

/-- DECODE (R110). -/
def execDecode (s : State) : Host.Outcome State Fault Refusal :=
  let d := decodeFrame s.cfg s.frame s.vs
  .next ({ s with vs := d.vs }.finish (decodeResult d.bits))

/-- GET_STATE: the snapshot becomes a copy of VS (R117). -/
def execGetState (s : State) : Host.Outcome State Fault Refusal :=
  .next ({ s with snap := s.vs }.finish 0)

/-- DECODER_RESET: VS alone becomes zero (R118). -/
def execDecoderReset (s : State) : Host.Outcome State Fault Refusal :=
  .next ({ s with vs := VehicleState.zero }.finish 0)

/-- The common part of the extractor (R120, R122, R123): a valid field's value, or RESULT 0 and
EXT_INVALID. The spec adds that a model faults on an invalid extract; this one has the hardware's
answer (DESIGN CHOICE, assumption log 2, unsafe). -/
def State.extract (s : State) (start len : Nat) (value : Word) : State :=
  if s.frame.fieldValid start len then s.finish value else s.finishWith false true 0

/-- EXTRACT_U (R122). -/
def execExtractU (start len : Nat) (s : State) : Host.Outcome State Fault Refusal :=
  .next (s.extract start len (BitVec.ofNat 32 (s.frame.extractU start len)))

/-- EXTRACT_S (R123). -/
def execExtractS (start len : Nat) (s : State) : Host.Outcome State Fault Refusal :=
  .next (s.extract start len (s.frame.extractS start len))

end Sys2Proof.Machine
end

