-- ==== Sys2Proof/Machine/Statistics.lean ====
section
/-!
DEFINITION. The rolling-buffer statistics engine (42_statistics.md): Record, the sums S and Q, Evaluate,
HIST_RECORD and HIST_EVALUATE.
-/

namespace Sys2Proof.Machine

/-- Record(rpm, speed, ts) (R170). -/
def History.record (c : Config) (h : History) (x : Sample) : History :=
  { slots := h.slots.set h.head.toNat x
    head := BitVec.ofNat 5 ((h.head.toNat + 1) % c.histCap)
    count := BitVec.ofNat 6 (min (h.count.toNat + 1) c.histCap) }

/-- HIST[i]; a slot outside the buffer holds nothing. -/
def History.slot (h : History) (i : Nat) : Sample := (h.slots[i]?).getD Sample.zero

/-- The slot written k appends before the next one: (HIST_HEAD - k) mod P_HIST_CAP (R42). -/
def History.heldIndex (c : Config) (h : History) (k : Nat) : Nat :=
  (h.head.toNat + c.histCap - k) % c.histCap

/-- The held samples, newest first: the slots (HIST_HEAD - k) mod P_HIST_CAP for
k = 1..HIST_COUNT (R42). -/
def History.held (c : Config) (h : History) : List Sample :=
  (List.range h.count.toNat).map (fun k => h.slot (h.heldIndex c (k + 1)))

/-- n = HIST_COUNT (R173). -/
def History.n (h : History) : Nat := h.count.toNat

/-- S, the sum of rpm over the held slots (R44, R173). -/
def History.sumRpm (c : Config) (h : History) : Nat := ((h.held c).map (fun x => x.rpm.toNat)).sum

/-- Q, the sum of rpm^2 over the held slots (R45, R173). -/
def History.sumSqRpm (c : Config) (h : History) : Nat :=
  ((h.held c).map (fun x => x.rpm.toNat * x.rpm.toNat)).sum

/-- What Evaluate answers (R175). -/
structure StatOutcome where
  flagged : Bool
  insufficient : Bool
  zeroVariance : Bool
deriving DecidableEq, Repr

/-- D = n*Q - S*S, exactly (R175). -/
def History.spread (c : Config) (h : History) : Int :=
  (h.n : Int) * (h.sumSqRpm c : Int) - (h.sumRpm c : Int) * (h.sumRpm c : Int)

/-- E = n*c - S for a candidate c, exactly (R175). -/
def History.deviation (c : Config) (h : History) (candidate : BitVec 16) : Int :=
  (h.n : Int) * (candidate.toNat : Int) - (h.sumRpm c : Int)

/-- Evaluate(c) (R175): no rounding, no square root. -/
def evaluate (c : Config) (h : History) (candidate : BitVec 16) : StatOutcome :=
  if h.n < c.minSamples then ⟨false, true, false⟩
  else if h.spread c = 0 then ⟨false, false, true⟩
  else
    ⟨decide ((c.sigma : Int) * (c.sigma : Int) * h.spread c <
        h.deviation c candidate * h.deviation c candidate), false, false⟩

/-- HIST_RECORD (R172). -/
def execHistRecord (s : State) : Host.Outcome State Fault Refusal :=
  .next ({ s with hist := s.hist.record s.cfg ⟨s.argRpm, s.argSpeed, s.frame.ts⟩ }.finish 0)

/-- HIST_EVALUATE (R178). -/
def execHistEvaluate (s : State) : Host.Outcome State Fault Refusal :=
  let o := evaluate s.cfg s.hist s.argRpm
  .next (s.finish (statResult o.zeroVariance o.insufficient o.flagged))

end Sys2Proof.Machine
end

