-- ==== Sys2Proof/Machine/Tracker.lean ====
section
/-!
DEFINITION. The message-frequency liveness tracker (41_tracker.md): Observe and TRACK_OBSERVE.
-/

namespace Sys2Proof.Machine

/-- The result of Observe (R150). -/
inductive ObserveCode where
  | updated
  | registered
  | flagged
deriving DecidableEq, Repr

/-- Updated = 0, Registered = 1, Flagged = 2 (R155). -/
def ObserveCode.bits : ObserveCode → BitVec 2
  | .updated => 0
  | .registered => 1
  | .flagged => 2

/-- What Observe answers (R150), with the table it leaves. -/
structure Observation where
  code : ObserveCode
  untracked : Bool
  table : FreqTable
deriving DecidableEq, Repr

/-- The stored entry of an ID: an index below FT_COUNT whose ID is the given one (R151). -/
def FreqTable.lookup (t : FreqTable) (id : CanId) : Option (Fin 16) :=
  (List.finRange 16).find? (fun j => decide (j.val < t.count.toNat) && decide (t.entries[j].id = id))

/-- An on-time sighting: last_seen refreshed and the count increased, saturating (R153). -/
def TrackEntry.refresh (e : TrackEntry) (now : Time) : TrackEntry :=
  { e with lastSeen := now, count := sat32 (e.count.toNat + 1) }

/-- A first sighting stored at index FT_COUNT (R154). -/
def FreqTable.insert (t : FreqTable) (id : CanId) (now : Time) : FreqTable :=
  { entries := t.entries.setIfInBounds t.count.toNat ⟨id, now, 1⟩, count := t.count + 1 }

/-- Observe(id, now) (R150-R155). -/
def observe (c : Config) (t : FreqTable) (id : CanId) (now : Time) : Observation :=
  match t.lookup id with
  | some j =>
    if c.timeout < elapsed now t.entries[j].lastSeen then ⟨.flagged, false, t⟩
    else ⟨.updated, false, { t with entries := t.entries.set j (t.entries[j].refresh now) }⟩
  | none =>
    if t.count.toNat < c.ftCap then ⟨.registered, false, t.insert id now⟩
    else ⟨.registered, true, t⟩

/-- TRACK_OBSERVE (R156). -/
def execTrackObserve (s : State) : Host.Outcome State Fault Refusal :=
  let o := observe s.cfg s.track s.frame.id s.frame.ts
  .next ({ s with track := o.table }.finish (trackResult o.untracked o.code.bits))

end Sys2Proof.Machine
end

