-- ==== Sys2Proof/Machine/Engine.lean ====
section
/-!
DEFINITION. The anomaly engine (43_engine.md): the five checks in their fixed order, the two outcomes of
a cycle, ENGINE_EVAL and FRAME_CYCLE.
-/

namespace Sys2Proof.Machine

/-- The anomaly variants (10_state.md R38). MISSING_MESSAGE is "reserved, currently unused": nothing
produces it (R158). -/
inductive AnomalyType where
  | rpmSpike
  | speedExceed
  | canFrequency
  | engineInconsistency
  | statisticalDeviation
  | missingMessage
deriving DecidableEq, Repr

/-- The TYPE codes (R38). -/
def AnomalyType.code : AnomalyType → BitVec 3
  | .rpmSpike => 1
  | .speedExceed => 2
  | .canFrequency => 3
  | .engineInconsistency => 4
  | .statisticalDeviation => 5
  | .missingMessage => 6

/-- Sev: the severity of a variant (R38, R198). -/
def AnomalyType.severity : AnomalyType → BitVec 3
  | .rpmSpike => 2
  | .speedExceed => 2
  | .canFrequency => 1
  | .engineInconsistency => 3
  | .statisticalDeviation => 1
  | .missingMessage => 4

/-- Check 1, RPM spike (R193). -/
def State.rpmSpike (s : State) : Bool :=
  s.baseline.valid && decide (s.cfg.spike < absDiff s.vs.rpm s.baseline.prevRpm)

/-- Check 2, speed ceiling (R194). -/
def State.speedExceed (s : State) : Bool := decide (s.cfg.speedMax < s.vs.speed.toNat)

/-- What Observe answers on the staged frame (R195). -/
def State.observeFrame (s : State) : Observation := observe s.cfg s.track s.frame.id s.frame.ts

/-- Check 4, engine consistency (R196). -/
def State.engineInconsistent (s : State) : Bool :=
  !s.vs.engineStatus && decide (0 < s.vs.rpm.toNat)

/-- Check 5, statistical deviation of the current rpm (R197). -/
def State.statDeviates (s : State) : Bool := (evaluate s.cfg s.hist s.vs.rpm).flagged

/-- The flagged outcome of a cycle (R198): the record overwritten, nothing else. -/
def State.flag (s : State) (k : AnomalyType) : State :=
  { s with anomaly := ⟨true, k.code, k.severity, s.frame.id, s.frame.ts⟩ }

/-- The unflagged outcome of a cycle (R199): the record cleared, the sample appended, the baseline
updated. -/
def State.unflagged (s : State) : State :=
  { s with
    anomaly := Anomaly.none
    hist := s.hist.record s.cfg ⟨s.vs.rpm, s.vs.speed, s.frame.ts⟩
    baseline := ⟨s.vs.rpm, true⟩ }

/-- Checks 4 and 5 and the unflagged outcome, after check 3 (R201). -/
def State.evalAfterObserve (s : State) : State :=
  if s.engineInconsistent then s.flag .engineInconsistency
  else if s.statDeviates then s.flag .statisticalDeviation
  else s.unflagged

/-- EngineEval(F, VS) (R201): the first positive check ends the cycle, and Observe runs only when
checks 1 and 2 are negative (R192). Observe's write of FT stays (R195, R200). -/
def State.engineEval (s : State) : State :=
  if s.rpmSpike then s.flag .rpmSpike
  else if s.speedExceed then s.flag .speedExceed
  else
    let o := s.observeFrame
    if o.code = .flagged then { s with track := o.table }.flag .canFrequency
    else { s with track := o.table }.evalAfterObserve

/-- ENGINE_EVAL (R204). -/
def execEngineEval (s : State) : Host.Outcome State Fault Refusal :=
  let t := s.engineEval
  .next (t.finish (cycleResult 0 t.anomaly))

/-- FRAME_CYCLE: Decode, then EngineEval on the updated VS (R205). -/
def execFrameCycle (s : State) : Host.Outcome State Fault Refusal :=
  let d := decodeFrame s.cfg s.frame s.vs
  let t := { s with vs := d.vs }.engineEval
  .next (t.finish (cycleResult d.bits t.anomaly))

end Sys2Proof.Machine
end

