-- ==== Sys2Proof/Machine/Dispatch.lean ====
section
/-!
DEFINITION. What each command does when it completes (44_control.md R231): one arm per instruction.
-/

namespace Sys2Proof.Machine

def exec (i : Instr) (s : State) : Host.Outcome State Fault Refusal :=
  match i with
  | .nop => Sys2Proof.Machine.execNop s
  | .frameCycle => Sys2Proof.Machine.execFrameCycle s
  | .decode => Sys2Proof.Machine.execDecode s
  | .getState => Sys2Proof.Machine.execGetState s
  | .decoderReset => Sys2Proof.Machine.execDecoderReset s
  | .trackObserve => Sys2Proof.Machine.execTrackObserve s
  | .histRecord => Sys2Proof.Machine.execHistRecord s
  | .histEvaluate => Sys2Proof.Machine.execHistEvaluate s
  | .extractU start len => Sys2Proof.Machine.execExtractU start len s
  | .extractS start len => Sys2Proof.Machine.execExtractS start len s
  | .engineEval => Sys2Proof.Machine.execEngineEval s
  | .reservedB => Sys2Proof.Machine.execReservedB s
  | .reservedC => Sys2Proof.Machine.execReservedC s
  | .reservedD => Sys2Proof.Machine.execReservedD s
  | .reservedE => Sys2Proof.Machine.execReservedE s
  | .softReset => Sys2Proof.Machine.execSoftReset s

end Sys2Proof.Machine
end

