-- ==== Sys2Proof/WellFormed.lean ====
section
/-!
DEFINITION. Well-formed syntax: the extractor's fields fit their six bits (30_encoding.md R91, R93,
R101) and a FRAME line lists at most the eight bytes of a frame (R103).
-/

namespace Sys2Proof

/-- FSTART and FLEN are 0..63 (R91, R93); "any FSTART/FLEN pair decodes", so nothing else is asked. -/
def Instr.wellFormed : Instr → Bool
  | .nop => true
  | .frameCycle => true
  | .decode => true
  | .getState => true
  | .decoderReset => true
  | .trackObserve => true
  | .histRecord => true
  | .histEvaluate => true
  | .extractU start len => decide (start < 64) && decide (len < 64)
  | .extractS start len => decide (start < 64) && decide (len < 64)
  | .engineEval => true
  | .reservedB => true
  | .reservedC => true
  | .reservedD => true
  | .reservedE => true
  | .softReset => true

/-- A FRAME line lists at most eight bytes and a CMD line a well-formed command (R101, R103). -/
def Line.wellFormed : Line → Bool
  | .wr _ _ => true
  | .rd _ => true
  | .cmd i => i.wellFormed
  | .wait => true
  | .frame _ _ bytes _ => decide (bytes.length ≤ 8)
  | .arg _ _ => true

end Sys2Proof
end

