-- ==== Sys2Proof/Decode.lean ====
section
/-!
DEFINITION. Decoding and encoding of command words (30_encoding.md R90-R97, R101).
-/

namespace Sys2Proof

/-- The opcode of each row of R92. -/
def Instr.opcode : Instr → BitVec 4
  | .nop => 0x0
  | .frameCycle => 0x1
  | .decode => 0x2
  | .getState => 0x3
  | .decoderReset => 0x4
  | .trackObserve => 0x5
  | .histRecord => 0x6
  | .histEvaluate => 0x7
  | .extractU _ _ => 0x8
  | .extractS _ _ => 0x9
  | .engineEval => 0xA
  | .reservedB => 0xB
  | .reservedC => 0xC
  | .reservedD => 0xD
  | .reservedE => 0xE
  | .softReset => 0xF

/-- OP = c[3:0] (R91). -/
def opField (c : Word) : BitVec 4 := c.extractLsb' 0 4

/-- FSTART = c[9:4], as an unsigned integer (R91, R93). -/
def fstartField (c : Word) : Nat := (c.extractLsb' 4 6).toNat

/-- FLEN = c[15:10], as an unsigned integer (R91, R93). -/
def flenField (c : Word) : Nat := (c.extractLsb' 10 6).toNat

/-- The command of a word. "A decoder reads OP alone" (R92); decoding is total (R97): the last arm is
OP = 0xF and no other, since OP has four bits. -/
def decode (c : Word) : Instr :=
  match (opField c).toNat with
  | 0x0 => .nop
  | 0x1 => .frameCycle
  | 0x2 => .decode
  | 0x3 => .getState
  | 0x4 => .decoderReset
  | 0x5 => .trackObserve
  | 0x6 => .histRecord
  | 0x7 => .histEvaluate
  | 0x8 => .extractU (fstartField c) (flenField c)
  | 0x9 => .extractS (fstartField c) (flenField c)
  | 0xA => .engineEval
  | 0xB => .reservedB
  | 0xC => .reservedC
  | 0xD => .reservedD
  | 0xE => .reservedE
  | _ => .softReset

/-- Why bytes are no command word. -/
inductive DecodeError where
  /-- fewer than the four bytes of a command word: "the length of every command is 32 bits" (R97) -/
  | tooShort
deriving DecidableEq, Repr

/-- The word of four bytes, the first its least significant (R72). -/
def wordOfBytes (b0 b1 b2 b3 : Byte) : Word := b3 ++ b2 ++ b1 ++ b0

/-- The four bytes of a word as the bus presents them, byte k being bits [8k+7:8k] (R72). -/
def bytesOfWord (v : Word) : List Byte :=
  [v.extractLsb' 0 8, v.extractLsb' 8 8, v.extractLsb' 16 8, v.extractLsb' 24 8]

/-- The command at the head of a list of bytes, and the rest of the list. -/
def decodeBytes : List Byte → Except DecodeError (Instr × List Byte)
  | b0 :: b1 :: b2 :: b3 :: rest => .ok (decode (wordOfBytes b0 b1 b2 b3), rest)
  | _ => .error .tooShort

/-- The canonical word of an instruction: its OP, FLEN and FSTART in place and every ignored bit 0
(R91, R101). -/
def encode (i : Instr) : Word :=
  match i with
  | .extractU start len => BitVec.ofNat 32 (len * 1024 + start * 16 + 0x8)
  | .extractS start len => BitVec.ofNat 32 (len * 1024 + start * 16 + 0x9)
  | .nop => 0x00000000
  | .frameCycle => 0x00000001
  | .decode => 0x00000002
  | .getState => 0x00000003
  | .decoderReset => 0x00000004
  | .trackObserve => 0x00000005
  | .histRecord => 0x00000006
  | .histEvaluate => 0x00000007
  | .engineEval => 0x0000000A
  | .reservedB => 0x0000000B
  | .reservedC => 0x0000000C
  | .reservedD => 0x0000000D
  | .reservedE => 0x0000000E
  | .softReset => 0x0000000F

/-- The word that a row of spec/opcode_table.json numbers as w in nbits bits: every bit above nbits
is 0. -/
def tableWord (nbits w : Nat) : Word := BitVec.ofNat 32 (w % 2 ^ nbits)

/-- What the decoder reads from a word of the opcode table. No command is longer than 32 bits
(R90, R97). -/
def decodeTableWord (nbits w : Nat) : Option Instr :=
  if nbits ≤ 32 then
    match decodeBytes (bytesOfWord (tableWord nbits w)) with
    | .ok (i, _) => some i
    | .error _ => none
  else none

end Sys2Proof
end

