-- ==== Sys2Proof/Machine/Bus.lean ====
section
/-!
DEFINITION. The register window (10_state.md R25-R49, 20_memory.md): which register stands at an offset,
what a read returns, what a write does, and how the block answers a host access.
-/

namespace Sys2Proof

/-- The offset of a register (R25, R46, R49, R100). -/
def Reg.offset : Reg → Nat
  | .frameId => 0x000
  | .frameDlc => 0x004
  | .frameData0 => 0x008
  | .frameData1 => 0x00C
  | .frameTs => 0x010
  | .arg0 => 0x014
  | .cmd => 0x018
  | .status => 0x01C
  | .result => 0x020
  | .snapSpeedRpm => 0x024
  | .snapMisc => 0x028
  | .snapTs => 0x02C
  | .anomStatus => 0x030
  | .anomTs => 0x034
  | .baseline => 0x038
  | .histStatus => 0x03C
  | .histSum => 0x040
  | .histSumsqLo => 0x044
  | .histSumsqHi => 0x048
  | .ftStatus => 0x04C
  | .histRS i => 0x100 + 8 * i.val
  | .histTS i => 0x104 + 8 * i.val
  | .ftId j => 0x200 + 16 * j.val
  | .ftLast j => 0x204 + 16 * j.val
  | .ftCount j => 0x208 + 16 * j.val

/-- The window offset of a bus address; none outside the window (R70, R71). -/
def Config.offsetOf (c : Config) (addr : Nat) : Option Nat :=
  if c.baseAddr ≤ addr ∧ addr < c.baseAddr + 4096 then some (addr - c.baseAddr) else none

end Sys2Proof

namespace Sys2Proof.Machine

/-- The registers at 0x000, 0x004, ..., 0x04C, in order (R25). -/
def namedRegs : List Reg :=
  [.frameId, .frameDlc, .frameData0, .frameData1, .frameTs, .arg0, .cmd, .status, .result,
   .snapSpeedRpm, .snapMisc, .snapTs, .anomStatus, .anomTs, .baseline, .histStatus, .histSum,
   .histSumsqLo, .histSumsqHi, .ftStatus]

/-- The register that the map of R25 names at an offset. None for 0x050-0x0FC, 0x300-0xFFC and word +12
of each FT entry (R74), for an offset that is no multiple of 4, and outside the window. -/
def regAt (off : Nat) : Option Reg :=
  if off % 4 ≠ 0 then none
  else if off < 0x100 then namedRegs[off / 4]?
  else if h : off < 0x200 then
    if off % 8 = 0 then some (.histRS ⟨(off - 0x100) / 8, by omega⟩)
    else some (.histTS ⟨(off - 0x100) / 8, by omega⟩)
  else if h : off < 0x300 then
    match off % 16 with
    | 0 => some (.ftId ⟨(off - 0x200) / 16, by omega⟩)
    | 4 => some (.ftLast ⟨(off - 0x200) / 16, by omega⟩)
    | 8 => some (.ftCount ⟨(off - 0x200) / 16, by omega⟩)
    | _ => none
  else none

/-- Two 16-bit halves as one word, the first in the high bits (R6). -/
def halves (hi lo : BitVec 16) : Word := hi ++ lo

/-- HIST[i] as the window shows it: a slot at or above P_HIST_CAP reads 0 (R46). -/
def State.shownSlot (s : State) (i : Fin 32) : Sample :=
  if i.val < s.cfg.histCap then s.hist.slots[i] else Sample.zero

/-- FT[j] as the window shows it: an entry at or above FT_COUNT reads 0 (R49). -/
def State.shownEntry (s : State) (j : Fin 16) : TrackEntry :=
  if j.val < s.track.count.toNat then s.track.entries[j] else TrackEntry.zero

/-- VALID of an FT entry: it is stored (R49). -/
def State.entryValid (s : State) (j : Fin 16) : Bool := decide (j.val < s.track.count.toNat)

/-- Q as the 37 bits that HIST_SUMSQ_LO and HIST_SUMSQ_HI hold (R45). -/
def State.sumSqBits (s : State) : BitVec 37 := BitVec.ofNat 37 (s.hist.sumSqRpm s.cfg)

/-- What a read of a register returns, reserved bits 0 (R25-R49, R77). While a command is pending these are
the values from before it, since its effects appear at once when it completes (R51, R75). A read of STATUS
in the busy window shows an OVERRUN that a write set earlier in that window: R76 sets the bit at once, and
the spec does not say whether such a read may already show it (R75 excepts BUSY alone, 95 CT11 speaks of
"once idle"; DESIGN CHOICE, assumption log 26, unsafe). -/
def State.readReg (s : State) : Reg → Word
  | .frameId => 0#21 ++ s.frame.id
  | .frameDlc => 0#28 ++ s.frame.dlc
  | .frameData0 => s.frame.data0
  | .frameData1 => s.frame.data1
  | .frameTs => s.frame.ts
  | .arg0 => s.arg0
  | .cmd => 0
  | .status => statusWord s.busy s.status
  | .result => s.result
  | .snapSpeedRpm => halves s.snap.rpm s.snap.speed
  | .snapMisc =>
    0#14 ++ BitVec.ofBool s.snap.faultStatus ++ BitVec.ofBool s.snap.engineStatus ++ 0#5 ++
      s.snap.gear ++ s.snap.throttle
  | .snapTs => s.snap.lastUpdate
  | .anomStatus => anomStatusWord s.anomaly
  | .anomTs => s.anomaly.ts
  | .baseline => 0#15 ++ BitVec.ofBool s.baseline.valid ++ s.baseline.prevRpm
  | .histStatus => 0#19 ++ s.hist.head ++ 0#2 ++ s.hist.count
  | .histSum => 0#11 ++ BitVec.ofNat 21 (s.hist.sumRpm s.cfg)
  | .histSumsqLo => s.sumSqBits.extractLsb' 0 32
  | .histSumsqHi => 0#27 ++ s.sumSqBits.extractLsb' 32 5
  | .ftStatus => 0#27 ++ s.track.count
  | .histRS i => halves (s.shownSlot i).speed (s.shownSlot i).rpm
  | .histTS i => (s.shownSlot i).ts
  | .ftId j => BitVec.ofBool (s.entryValid j) ++ 0#20 ++ (s.shownEntry j).id
  | .ftLast j => (s.shownEntry j).lastSeen
  | .ftCount j => (s.shownEntry j).count

/-- The 32-bit word at a window offset: its register, or 0 where the map names none (R74, R77). -/
def State.readWord (s : State) (off : Nat) : Word :=
  match regAt off with
  | some r => s.readReg r
  | none => 0

/-- Byte lane k of a register value (R72). -/
def laneByte (v : Word) (k : Nat) : Byte := v.extractLsb' (8 * k) 8

/-- The byte at a window offset, as the bus presents the register it lies in (R72). -/
def State.windowByte (s : State) (off : Nat) : Byte := laneByte (s.readWord (4 * (off / 4))) (off % 4)

/-- MemWrite(off, 4, v) while STATUS.BUSY = 0 (R77): the input registers, CMD, and OVERRUN's
write-1-to-clear; a write to a read-only register, a window or a reserved offset has no effect. -/
def State.writeIdle (s : State) (off : Nat) (v : Word) : State :=
  match regAt off with
  | some .frameId => { s with frame := { s.frame with id := v.extractLsb' 0 11 } }
  | some .frameDlc => { s with frame := { s.frame with dlc := v.extractLsb' 0 4 } }
  | some .frameData0 => { s with frame := { s.frame with data0 := v } }
  | some .frameData1 => { s with frame := { s.frame with data1 := v } }
  | some .frameTs => { s with frame := { s.frame with ts := v } }
  | some .arg0 => { s with arg0 := v }
  | some .cmd => { s with pending := some ⟨v, 0⟩ }
  | some .status =>
    if v.getLsbD 2 then { s with status := { s.status with overrun := false } } else s
  | _ => s

/-- A write while STATUS.BUSY = 1 is ignored and sets OVERRUN, whatever its offset (R76). The spec's
list of treatments says that a model faults here (93 I18); this one has the hardware's effect
(DESIGN CHOICE, assumption log 4, unsafe). -/
def State.writeBusy (s : State) : State := { s with status := { s.status with overrun := true } }

/-- The accesses the block supports (R71, R73). -/
def supported (off size : Nat) : Bool :=
  decide (size = 4) && decide (off % 4 = 0) && decide (off < 4096)

/-- The value a read returns: an unsupported one returns 0 (R73). -/
def State.busRead (s : State) (off size : Nat) : Word :=
  if supported off size then s.readWord off else 0

/-- A write as the block performs it: an unsupported one changes nothing, not even OVERRUN (R73). The
spec adds that a model refuses an unsupported access; this one has the hardware's answer (DESIGN
CHOICE, assumption log 3, unsafe). -/
def State.busWrite (s : State) (off size : Nat) (v : Word) : State :=
  if supported off size then
    if s.busy then s.writeBusy else s.writeIdle off v
  else s

/-- One more host access has landed in the busy window that was open before it (assumption log 6). -/
def State.countLanding (s : State) (before : Option Pending) : State :=
  match before with
  | none => s
  | some p => { s with pending := some { p with landed := p.landed + 1 } }

/-- The block's answer to one host access (R71-R77). A read changes no state of the block (R75); its
value goes to the host's list of answers. -/
def State.hostAccess (s : State) (a : Access) : State :=
  match a with
  | .read off size => { s with answers := s.busRead off size :: s.answers }.countLanding s.pending
  | .write off size v => (s.busWrite off size v).countLanding s.pending

end Sys2Proof.Machine
end

