-- ==== Sys2Proof/Machine/Sequencer.lean ====
section
/-!
DEFINITION. What happens next (00_scope.md R4, 10_state.md R51, 70_reset_and_hazards.md R270, R290): the
next access of the host, the completion of the pending command, a hardware reset, or nothing.
-/

namespace Sys2Proof.Machine

/-- The next move of the machine, with the inputs that are left after it. -/
inductive Move where
  /-- nothing: the block is idle, "and keeps all its state" (R258) -/
  | idle (rest : List Input)
  /-- a host access reaches the block (R71) -/
  | access (a : Access) (rest : List Input)
  /-- the pending command completes (R231) -/
  | complete (c : Word) (rest : List Input)
  /-- hardware reset (R270) -/
  | reset (rest : List Input)
deriving DecidableEq, Repr

/-- Where the draw of R51 is taken: a pending command completes at the next latencyElapsed entry, or when
the host does nothing more, or when P_CMD_LATENCY host accesses have landed (R290); until then the
host's accesses land in the busy window. With nothing pending, a latencyElapsed entry is nothing
(DESIGN CHOICE, assumption log 5, 6 and 19, safe). -/
def State.nextMove (s : State) : Move :=
  match s.inputs with
  | .hardwareReset :: rest => .reset rest
  | .latencyElapsed :: rest =>
    match s.pending with
    | none => .idle rest
    | some p => .complete p.word rest
  | .access a :: rest =>
    match s.pending with
    | none => .access a rest
    | some p =>
      if p.landed < s.cfg.cmdLatency then .access a rest else .complete p.word (.access a :: rest)
  | [] =>
    match s.pending with
    | none => .idle []
    | some p => .complete p.word []

/-- The state with a command word pending whose latency has passed: what the very next step completes.
The block fetches nothing (R24, R82), so this stands for the host's CMD write (assumption log 5). -/
def State.withPendingWord (s : State) (c : Word) : State :=
  { s with pending := some ⟨c, 0⟩, inputs := .latencyElapsed :: s.inputs }

end Sys2Proof.Machine
end

