-- ==== Sys2Proof/Machine/Step.lean ====
section
/-!
DEFINITION. One step of the machine.
-/

namespace Sys2Proof.Machine

/-- One step: the next move of State.nextMove, performed. A completing command runs exec on its decoded
word (44_control.md R231). -/
def step (s : State) : Host.Outcome State Fault Refusal :=
  match s.nextMove with
  | .idle rest => .next { s with inputs := rest }
  | .access a rest => .next ({ s with inputs := rest }.hostAccess a)
  | .complete c rest => exec (decode c) { s with inputs := rest }
  | .reset rest => .next { s with inputs := rest }.hardwareReset

/-- The state whose very next step runs the instruction of a word of the opcode table: that word is
pending and its latency has passed (assumption log 5). -/
def State.withFetchWord (s : State) (nbits w : Nat) : State := s.withPendingWord (tableWord nbits w)

end Sys2Proof.Machine
end

