-- ==== Sys2Proof/Machine/HostAsm.lean ====
section
/-!
DEFINITION. The host assembly (30_encoding.md R100-R104): each line as the bus transactions it expands
to.
-/

namespace Sys2Proof

/-- The offset of a register operand (R100). -/
def Operand.offset : Operand → Nat
  | .reg r => r.offset
  | .raw off => off

end Sys2Proof

namespace Sys2Proof.Machine

/-- `WR off, v` (R100). -/
def wrAt (off : Nat) (v : Word) : Input := .access (.write off 4 v)

/-- `RD off` (R100). -/
def rdAt (off : Nat) : Input := .access (.read off 4)

/-- Byte i of a FRAME line's list: "Bytes the list omits are written as 0" (R103). -/
def listByte (bytes : List Byte) (i : Nat) : Byte := (bytes[i]?).getD 0

/-- Four bytes of a FRAME line's list from index i on, as a data word (R103). -/
def dataWord (bytes : List Byte) (i : Nat) : Word :=
  wordOfBytes (listByte bytes i) (listByte bytes (i + 1)) (listByte bytes (i + 2))
    (listByte bytes (i + 3))

/-- A line's accesses (R100-R104). WAIT repeats its read of STATUS until BUSY reads 0: `polls` is how many
of them still read 1, the draw of R51, after which the command completes and one more read follows
(assumption log 24). -/
def expand (polls : Nat) : Line → List Input
  | .wr o v => [wrAt (o.offset) v]
  | .rd o => [rdAt (o.offset)]
  | .cmd i => [wrAt 0x018 (encode i)]
  | .wait => List.replicate polls (rdAt 0x01C) ++ [.latencyElapsed, rdAt 0x01C]
  | .frame id dlc bytes ts =>
    [wrAt 0x000 id, wrAt 0x004 dlc, wrAt 0x008 (dataWord bytes 0), wrAt 0x00C (dataWord bytes 4),
     wrAt 0x010 ts]
  | .arg rpm speed => [wrAt 0x014 (halves speed rpm)]

/-- A program's accesses in the order written (R104), one number of busy polls for each WAIT. A command's
completion stands inside the next WAIT and nowhere else: the accesses a program makes between CMD and
WAIT, or after a CMD with no WAIT, land in the busy window, until P_CMD_LATENCY of them have landed or the
program ends. R51 leaves that moment a draw; the other draws of such a program are other lists of inputs
(DESIGN CHOICE, assumption log 27, unsafe for a claim about such a program). -/
def assemble : List Line → List Nat → List Input
  | [], _ => []
  | .wait :: ls, d :: ds => expand d .wait ++ assemble ls ds
  | l :: ls, ds => expand 0 l ++ assemble ls ds

end Sys2Proof.Machine
end

