-- ==== Sys2Proof/Safety.lean ====
section
/-!
DEFINITION. What counts as a safe run, in the terms the statements use. First the invariants of
10_state.md R50, with the bounds of R21, R38 and R42 and the exclusion of R253. Then the cases in which
the spec has an effect for the hardware and says that a MODEL faults or refuses (20_memory.md R73,
30_encoding.md R94, 40_decoder.md R120, 93_implementation_defined.md I12, I14, I15, I18): the model has
the hardware's effect, and a claim that wants the conservative reading takes
`s.violation = none` as its premise (assumption log 1-4).
-/

namespace Sys2Proof.Machine

/-- The ranges of a VehicleState that the decoder can produce (R21, R50 (e), R112-R114). -/
structure VehicleState.InRange (v : VehicleState) : Prop where
  speed_le : v.speed.toNat ≤ 6553
  rpm_le : v.rpm.toNat ≤ 16383
  throttle_le : v.throttle.toNat ≤ 100

/-- The ring buffer's invariant: R50 (a), R42, and R46's "A slot never written since reset reads 0". -/
structure History.Inv (c : Config) (h : History) : Prop where
  count_le : h.count.toNat ≤ c.histCap
  head_lt : h.head.toNat < c.histCap
  head_eq_count : h.count.toNat < c.histCap → h.head.toNat = h.count.toNat
  unwritten : ∀ i : Fin 32, h.count.toNat ≤ i.val → h.slots[i] = Sample.zero

/-- The frequency table's invariant: R50 (b), (c), (d), and R49's "no rule has written it since
reset". -/
structure FreqTable.Inv (c : Config) (t : FreqTable) : Prop where
  count_le : t.count.toNat ≤ c.ftCap
  ids_distinct : ∀ i j : Fin 16, i.val < t.count.toNat → j.val < t.count.toNat →
    t.entries[i].id = t.entries[j].id → i = j
  count_pos : ∀ j : Fin 16, j.val < t.count.toNat → 1 ≤ t.entries[j].count.toNat
  unwritten : ∀ j : Fin 16, t.count.toNat ≤ j.val → t.entries[j] = TrackEntry.zero

/-- The (TYPE, SEVERITY) pairs that a produced anomaly can have (R38). -/
def producedAnomalies : List (BitVec 3 × BitVec 3) := [(1, 2), (2, 2), (3, 1), (4, 3), (5, 1)]

/-- The invariant of the block: it "holds in every state reachable from reset" (R50). -/
structure State.Inv (s : State) : Prop where
  hist : s.hist.Inv s.cfg
  track : s.track.Inv s.cfg
  vs : s.vs.InRange
  snap : s.snap.InRange
  baseline : s.baseline.valid = false → s.baseline.prevRpm = 0
  anomaly_absent : s.anomaly.has = false → s.anomaly = Anomaly.none
  anomaly_present : s.anomaly.has = true → (s.anomaly.type, s.anomaly.severity) ∈ producedAnomalies
  one_status : ¬ (s.status.cmdIllegal = true ∧ s.status.extInvalid = true)

/-- The cases the spec's list of model treatments stops on (93 I12, I14, I15, I18). -/
inductive Violation where
  /-- a reserved opcode completes (R94, R233) -/
  | reservedOpcode (c : Word)
  /-- an extract of an invalid field completes (R120) -/
  | invalidExtract (c : Word)
  /-- an access of another size, misaligned or outside the window (R73) -/
  | unsupportedAccess (a : Access)
  /-- a supported write while BUSY = 1 (R76, R274) -/
  | writeWhileBusy (a : Access)
deriving DecidableEq, Repr

/-- The violation a completing command word is, if any. -/
def State.commandViolation (s : State) (c : Word) : Option Violation :=
  match decode c with
  | .nop => none
  | .frameCycle => none
  | .decode => none
  | .getState => none
  | .decoderReset => none
  | .trackObserve => none
  | .histRecord => none
  | .histEvaluate => none
  | .extractU start len => if s.frame.fieldValid start len then none else some (.invalidExtract c)
  | .extractS start len => if s.frame.fieldValid start len then none else some (.invalidExtract c)
  | .engineEval => none
  | .reservedB => some (.reservedOpcode c)
  | .reservedC => some (.reservedOpcode c)
  | .reservedD => some (.reservedOpcode c)
  | .reservedE => some (.reservedOpcode c)
  | .softReset => none

/-- The violation a host access is, if any. -/
def State.accessViolation (s : State) (a : Access) : Option Violation :=
  match a with
  | .read off size => if supported off size then none else some (.unsupportedAccess a)
  | .write off size _ =>
    if supported off size then (if s.busy then some (.writeWhileBusy a) else none)
    else some (.unsupportedAccess a)

/-- The violation the next step is, if any: where it is none, the step is one that the conservative
model of the spec also takes. -/
def State.violation (s : State) : Option Violation :=
  match s.nextMove with
  | .idle _ => none
  | .access a _ => s.accessViolation a
  | .complete c _ => s.commandViolation c
  | .reset _ => none

end Sys2Proof.Machine
end

