-- ==== Sys2Proof/Certificates/Slice0/Obligations.lean ====
section
/-!
DEFINITION. The statements for the provers. Each docstring names the rules of spec/ it formalises.
A command is spoken of by any of its words: `c &&& 0xF = OP` "selects the row for every c, whatever its
other bits" (30_encoding.md R92).
-/

open Sys2Proof Sys2Proof.Machine

/-! ## Reset, the step, decoding -/

/-- Hardware reset: the state after it has every element at the value of the table of R52, and a reset
that arrives in any state, busy or not, gives that state with the parameters and the outside world as
they were (R52; that those two stay is the model's, log 18). -/
def Obligations.HardwareResetZeroesEveryElement : Prop :=
  (State.reset.vs = ⟨0, 0, 0, 0, false, false, 0⟩ ∧
    State.reset.frame = ⟨0, 0, 0, 0, 0⟩ ∧ State.reset.arg0 = 0 ∧
    State.reset.pending = none ∧ State.reset.status = ⟨false, false, false⟩ ∧
    State.reset.result = 0 ∧ State.reset.snap = ⟨0, 0, 0, 0, false, false, 0⟩ ∧
    State.reset.anomaly = ⟨false, 0, 0, 0, 0⟩ ∧ State.reset.baseline = ⟨0, false⟩ ∧
    (∀ i : Fin 32, State.reset.hist.slots[i] = ⟨0, 0, 0⟩) ∧
    State.reset.hist.head = 0 ∧ State.reset.hist.count = 0 ∧
    (∀ j : Fin 16, State.reset.track.entries[j] = ⟨0, 0, 0⟩) ∧ State.reset.track.count = 0) ∧
  ∀ (s : State) (rest : List Input), s.inputs = .hardwareReset :: rest →
    step s = .next { State.reset with build := s.build, inputs := rest, answers := s.answers }

/-- A step runs the decoded instruction: with a word pending, the step at which its latency has passed,
at which the host does nothing more, or at which P_CMD_LATENCY accesses have landed, is exec of the
decoded word (R51, R231, R290; the form of the schedule is the model's, log 5 and 6). -/
def Obligations.StepRunsThePendingCommand : Prop :=
  ∀ (s : State) (p : Pending), s.pending = some p →
    (∀ rest, s.inputs = .latencyElapsed :: rest →
      step s = exec (decode p.word) { s with inputs := rest }) ∧
    (s.inputs = [] → step s = exec (decode p.word) s) ∧
    (∀ a rest, s.inputs = .access a :: rest → s.cfg.cmdLatency ≤ p.landed →
      step s = exec (decode p.word) s)

/-- R31: a host write of v to CMD while idle starts the command v, and nothing else changes; BUSY then
reads 1; a read of CMD returns 0 in every state. -/
def Obligations.CmdWriteStartsTheCommand : Prop :=
  (∀ (s : State) (v : Word) (rest : List Input), s.pending = none →
    s.inputs = .access (.write 0x018 4 v) :: rest →
      ∃ t, step s = .next t ∧ t = { s with pending := some ⟨v, 0⟩, inputs := rest } ∧
        (t.readWord 0x01C).getLsbD 0 = true) ∧
  ∀ s : State, s.readWord 0x018 = 0

/-- A step of an idle block with nothing to do changes nothing: "Between commands it is idle and keeps all
its state" (R258), "The block takes no step of its own between commands" (R4). -/
def Obligations.IdleBlockKeepsItsState : Prop :=
  ∀ s : State, s.pending = none → s.inputs = [] → step s = .next s

/-- Words written out from the spec's encodings (R91, R92, R101, 95_test_vectors.md CT3, CT4) decode to
the commands they stand for. -/
def Obligations.WrittenWordsDecode : Prop :=
  decode 0x00000001 = .frameCycle ∧ decode 0x000030C8 = .extractU 12 12 ∧
  decode 0x00002389 = .extractS 56 8 ∧ decode 0xFFFF0002 = .decode ∧ decode 0x0000FFF2 = .decode ∧
  decode 0x0000000B = .reservedB ∧ decode 0x00000006 = .histRecord ∧ decode 0x00000005 = .trackObserve ∧
  decode 0x0000000A = .engineEval ∧ decode 0x0000000F = .softReset ∧ decode 0x00000000 = .nop

/-- Decode and encode agree: every well-formed instruction, with every operand at every value the encoding
admits, is what its canonical word decodes to, as a word and as four bytes on the bus (R91, R101). -/
def Obligations.DecodeOfEncodeIsTheInstruction : Prop :=
  ∀ i : Instr, i.wellFormed = true →
    decode (encode i) = i ∧ decodeBytes (bytesOfWord (encode i)) = .ok (i, [])

/-- R92: OP alone selects the row, for every word whatever its other bits; EXTRACT_U and EXTRACT_S take
FSTART = c[9:4] and FLEN = c[15:10] (R91). -/
def Obligations.OpcodeMapSelectsTheRow : Prop :=
  ∀ c : Word,
    (c &&& 0xF = 0x0 → decode c = .nop) ∧ (c &&& 0xF = 0x1 → decode c = .frameCycle) ∧
    (c &&& 0xF = 0x2 → decode c = .decode) ∧ (c &&& 0xF = 0x3 → decode c = .getState) ∧
    (c &&& 0xF = 0x4 → decode c = .decoderReset) ∧ (c &&& 0xF = 0x5 → decode c = .trackObserve) ∧
    (c &&& 0xF = 0x6 → decode c = .histRecord) ∧ (c &&& 0xF = 0x7 → decode c = .histEvaluate) ∧
    (c &&& 0xF = 0x8 → decode c = .extractU (c.toNat / 16 % 64) (c.toNat / 1024 % 64)) ∧
    (c &&& 0xF = 0x9 → decode c = .extractS (c.toNat / 16 % 64) (c.toNat / 1024 % 64)) ∧
    (c &&& 0xF = 0xA → decode c = .engineEval) ∧ (c &&& 0xF = 0xB → decode c = .reservedB) ∧
    (c &&& 0xF = 0xC → decode c = .reservedC) ∧ (c &&& 0xF = 0xD → decode c = .reservedD) ∧
    (c &&& 0xF = 0xE → decode c = .reservedE) ∧ (c &&& 0xF = 0xF → decode c = .softReset)

/-- Two words are the same command exactly when they agree on the bits that are not ignored: OP, and for an
extract c[15:4] too (R95); and every word decodes to a well-formed instruction (R97). -/
def Obligations.DecodeReadsExactlyTheUsedBits : Prop :=
  (∀ c d : Word, decode c = decode d ↔
    (c &&& 0xF = d &&& 0xF ∧
      (c &&& 0xF = 0x8 ∨ c &&& 0xF = 0x9 → c &&& 0xFFFF = d &&& 0xFFFF))) ∧
  ∀ c : Word, (decode c).wellFormed = true

/-! ## Control commands -/

/-- R230: NOP writes RESULT = 0, CMD_ILLEGAL = 0 and EXT_INVALID = 0, ends the busy state, and changes
nothing else. -/
def Obligations.NopClearsTheCommandBits : Prop :=
  ∀ (c : Word) (s : State), c &&& 0xF = 0x0 →
    exec (decode c) s = .next { s with
      pending := none, result := 0, status := ⟨false, s.status.overrun, false⟩ }

/-- The four reserved opcodes have the hardware's effect: RESULT = 0, CMD_ILLEGAL = 1, EXT_INVALID = 0,
nothing else (R233's pseudocode and status line). That the model runs them, where R94 and R233 would
have it fault, is the model's choice (log 1). -/
def Obligations.ReservedOpcodesReportIllegal : Prop :=
  ∀ (c : Word) (s : State),
    c &&& 0xF = 0xB ∨ c &&& 0xF = 0xC ∨ c &&& 0xF = 0xD ∨ c &&& 0xF = 0xE →
    exec (decode c) s = .next { s with
      pending := none, result := 0, status := ⟨true, s.status.overrun, false⟩ }

/-- R232: SOFT_RESET puts every element of R52 to its reset value except the staged frame, ARG0 and
OVERRUN. -/
def Obligations.SoftResetKeepsInputsAndOverrun : Prop :=
  ∀ (c : Word) (s : State), c &&& 0xF = 0xF →
    ∃ t, exec (decode c) s = .next t ∧
      t.vs = ⟨0, 0, 0, 0, false, false, 0⟩ ∧ t.snap = ⟨0, 0, 0, 0, false, false, 0⟩ ∧
      t.pending = none ∧ t.status = ⟨false, s.status.overrun, false⟩ ∧ t.result = 0 ∧
      t.anomaly = ⟨false, 0, 0, 0, 0⟩ ∧ t.baseline = ⟨0, false⟩ ∧
      (∀ i : Fin 32, t.hist.slots[i] = ⟨0, 0, 0⟩) ∧ t.hist.head = 0 ∧ t.hist.count = 0 ∧
      (∀ j : Fin 16, t.track.entries[j] = ⟨0, 0, 0⟩) ∧ t.track.count = 0 ∧
      t.frame = s.frame ∧ t.arg0 = s.arg0 ∧
      t.build = s.build ∧ t.inputs = s.inputs ∧ t.answers = s.answers

/-! ## The decoder -/

/-- R117: GET_STATE copies VS into the three snapshot registers, with their reserved bits 0, writes
RESULT = 0, and changes nothing but the snapshot and the command's status; no other command but SOFT_RESET
changes the snapshot. -/
def Obligations.GetStateCopiesTheVehicleState : Prop :=
  (∀ (c : Word) (s : State), c &&& 0xF = 0x3 →
    ∃ t, exec (decode c) s = .next t ∧
      t.readWord 0x024 = s.vs.rpm ++ s.vs.speed ∧
      t.readWord 0x028 = 0#14 ++ BitVec.ofBool s.vs.faultStatus ++ BitVec.ofBool s.vs.engineStatus ++
        0#5 ++ s.vs.gear ++ s.vs.throttle ∧
      t.readWord 0x02C = s.vs.lastUpdate ∧
      t = { s with
        snap := t.snap, pending := none, result := 0, status := ⟨false, s.status.overrun, false⟩ }) ∧
  ∀ (i : Instr) (s t : State), exec i s = .next t → i ≠ .getState → i ≠ .softReset → t.snap = s.snap

/-- R118: DECODER_RESET zeroes VS, writes RESULT = 0, and leaves the snapshot, the baseline, HIST, FT and
the anomaly record as they were; check 4 cannot flag on what it leaves. -/
def Obligations.DecoderResetZeroesOnlyTheVehicleState : Prop :=
  ∀ (c : Word) (s : State), c &&& 0xF = 0x4 →
    ∃ t, exec (decode c) s = .next t ∧
      t = { s with
        vs := ⟨0, 0, 0, 0, false, false, 0⟩, pending := none, result := 0,
        status := ⟨false, s.status.overrun, false⟩ } ∧
      t.engineInconsistent = false

/-- R112: DECODE of the speed frame writes floor(raw / 10) and last_update when the DLC suffices, RESULT
0b011; with too short a DLC it writes nothing of VS, RESULT 0b010. -/
def Obligations.SpeedRoutineWritesTenths : Prop :=
  ∀ (c : Word) (s : State), c &&& 0xF = 0x2 → s.frame.id = s.cfg.idSpeed → s.frame.dlc.toNat ≤ 8 →
    (s.cfg.offSpeed + 2 ≤ s.frame.dlc.toNat →
      ∃ v : BitVec 16,
        v.toNat = ((s.frame.byte s.cfg.offSpeed).toNat +
          256 * (s.frame.byte (s.cfg.offSpeed + 1)).toNat) / 10 ∧
        exec (decode c) s = .next { s with
          vs := { s.vs with speed := v, lastUpdate := s.frame.ts }
          pending := none, result := 3, status := ⟨false, s.status.overrun, false⟩ }) ∧
    (s.frame.dlc.toNat < s.cfg.offSpeed + 2 →
      exec (decode c) s = .next { s with
        pending := none, result := 2, status := ⟨false, s.status.overrun, false⟩ })

/-- R113: the same for the rpm frame, with floor(raw / 4). -/
def Obligations.RpmRoutineWritesQuarters : Prop :=
  ∀ (c : Word) (s : State), c &&& 0xF = 0x2 → s.frame.id = s.cfg.idRpm → s.frame.dlc.toNat ≤ 8 →
    (s.cfg.offRpm + 2 ≤ s.frame.dlc.toNat →
      ∃ v : BitVec 16,
        v.toNat = ((s.frame.byte s.cfg.offRpm).toNat +
          256 * (s.frame.byte (s.cfg.offRpm + 1)).toNat) / 4 ∧
        exec (decode c) s = .next { s with
          vs := { s.vs with rpm := v, lastUpdate := s.frame.ts }
          pending := none, result := 3, status := ⟨false, s.status.overrun, false⟩ }) ∧
    (s.frame.dlc.toNat < s.cfg.offRpm + 2 →
      exec (decode c) s = .next { s with
        pending := none, result := 2, status := ⟨false, s.status.overrun, false⟩ })

/-- R114: the throttle frame writes floor(byte * 100 / 255), at most 100. -/
def Obligations.ThrottleRoutineScalesToPercent : Prop :=
  ∀ (c : Word) (s : State), c &&& 0xF = 0x2 → s.frame.id = s.cfg.idThrottle →
    s.frame.dlc.toNat ≤ 8 →
    (s.cfg.offThrottle + 1 ≤ s.frame.dlc.toNat →
      ∃ v : BitVec 8,
        v.toNat = (s.frame.byte s.cfg.offThrottle).toNat * 100 / 255 ∧ v.toNat ≤ 100 ∧
        exec (decode c) s = .next { s with
          vs := { s.vs with throttle := v, lastUpdate := s.frame.ts }
          pending := none, result := 3, status := ⟨false, s.status.overrun, false⟩ }) ∧
    (s.frame.dlc.toNat < s.cfg.offThrottle + 1 →
      exec (decode c) s = .next { s with
        pending := none, result := 2, status := ⟨false, s.status.overrun, false⟩ })

/-- R115: the engine frame writes engine_status = b[0] and gear = b[3:1]; b[7:4] do not matter. -/
def Obligations.EngineRoutineWritesStatusAndGear : Prop :=
  ∀ (c : Word) (s : State), c &&& 0xF = 0x2 → s.frame.id = s.cfg.idEngine →
    s.frame.dlc.toNat ≤ 8 →
    (s.cfg.offEngine + 1 ≤ s.frame.dlc.toNat →
      ∃ g : BitVec 3,
        g.toNat = (s.frame.byte s.cfg.offEngine).toNat / 2 % 8 ∧
        exec (decode c) s = .next { s with
          vs := { s.vs with
            engineStatus := decide ((s.frame.byte s.cfg.offEngine).toNat % 2 = 1)
            gear := g, lastUpdate := s.frame.ts }
          pending := none, result := 3, status := ⟨false, s.status.overrun, false⟩ }) ∧
    (s.frame.dlc.toNat < s.cfg.offEngine + 1 →
      exec (decode c) s = .next { s with
        pending := none, result := 2, status := ⟨false, s.status.overrun, false⟩ })

/-- R116: the fault frame writes fault_status = bit 0 of its byte; bits [7:1] do not matter. -/
def Obligations.FaultRoutineWritesTheFaultBit : Prop :=
  ∀ (c : Word) (s : State), c &&& 0xF = 0x2 → s.frame.id = s.cfg.idFault → s.frame.dlc.toNat ≤ 8 →
    (s.cfg.offFault + 1 ≤ s.frame.dlc.toNat →
      exec (decode c) s = .next { s with
        vs := { s.vs with
          faultStatus := decide ((s.frame.byte s.cfg.offFault).toNat % 2 = 1)
          lastUpdate := s.frame.ts }
        pending := none, result := 3, status := ⟨false, s.status.overrun, false⟩ }) ∧
    (s.frame.dlc.toNat < s.cfg.offFault + 1 →
      exec (decode c) s = .next { s with
        pending := none, result := 2, status := ⟨false, s.status.overrun, false⟩ })

/-- DECODE of an unknown ID or of a malformed frame leaves VS as it was; RESULT is {malformed, recognised,
0} (R110's pseudocode; its corner case (a) says RESULT = 0 of an unknown ID without speaking of a
malformed one, log 25). -/
def Obligations.DecodeSkipsUnknownAndMalformedFrames : Prop :=
  ∀ (c : Word) (s : State), c &&& 0xF = 0x2 →
    (s.frame.id ∉ s.cfg.knownIds → s.frame.dlc.toNat ≤ 8 →
      exec (decode c) s = .next { s with
        pending := none, result := 0, status := ⟨false, s.status.overrun, false⟩ }) ∧
    (s.frame.id ∉ s.cfg.knownIds → 8 < s.frame.dlc.toNat →
      exec (decode c) s = .next { s with
        pending := none, result := 4, status := ⟨false, s.status.overrun, false⟩ }) ∧
    (s.frame.id ∈ s.cfg.knownIds → 8 < s.frame.dlc.toNat →
      exec (decode c) s = .next { s with
        pending := none, result := 6, status := ⟨false, s.status.overrun, false⟩ })

/-- R110 (d): "Decoding the same frame twice leaves the same VS as decoding it once"; the whole state is
the same. -/
def Obligations.DecodingTwiceIsDecodingOnce : Prop :=
  ∀ s : State, ∃ t, exec .decode s = .next t ∧ exec .decode t = .next t

/-- No command's outcome depends on a data byte at index >= F.dlc (R28, R110 (e), R120; 93 I4): two states
that differ only in such bytes go to states that differ only in them. -/
def Obligations.BytesPastTheDlcDoNotMatter : Prop :=
  ∀ (i : Instr) (s : State) (d0 d1 : Word),
    (∀ k, k < 8 → k < s.frame.dlc.toNat →
      ({ s.frame with data0 := d0, data1 := d1 } : Frame).byte k = s.frame.byte k) →
    ∃ t, exec i s = .next t ∧
      exec i { s with frame := { s.frame with data0 := d0, data1 := d1 } } =
        .next { t with frame := { s.frame with data0 := d0, data1 := d1 } }

/-! ## The extractor -/

/-- EXTRACT_U of a valid field gives floor(W / 2^start) mod 2^len with W the sum of the frame's bytes in their
places (R119-R122); of any other field RESULT 0 and EXT_INVALID 1; nothing else changes. That an extract of
an invalid field runs with the hardware's answer, where R120 and 93 I14 have a model fault, is the model's
choice (log 2). -/
def Obligations.ExtractUnsignedGivesTheField : Prop :=
  ∀ (c : Word) (s : State) (start len w : Nat), c &&& 0xF = 0x8 →
    start = c.toNat / 16 % 64 → len = c.toNat / 1024 % 64 →
    w = ((List.range 8).map (fun i => (s.frame.byte i).toNat * 2 ^ (8 * i))).sum →
    (s.frame.dlc.toNat ≤ 8 ∧ 1 ≤ len ∧ len ≤ 32 ∧ start + len ≤ 8 * s.frame.dlc.toNat →
      ∃ r : Word, r.toNat = w / 2 ^ start % 2 ^ len ∧
        exec (decode c) s = .next { s with
          pending := none, result := r, status := ⟨false, s.status.overrun, false⟩ }) ∧
    (¬ (s.frame.dlc.toNat ≤ 8 ∧ 1 ≤ len ∧ len ≤ 32 ∧ start + len ≤ 8 * s.frame.dlc.toNat) →
      exec (decode c) s = .next { s with
        pending := none, result := 0, status := ⟨false, s.status.overrun, true⟩ })

/-- EXTRACT_S gives the field's two's-complement value, sign-extended to 32 bits (R119-R121, R123); an invalid
field RESULT 0 and EXT_INVALID 1; nothing else changes. That an extract of an invalid field runs with the
hardware's answer, where R120 and 93 I14 have a model fault, is the model's choice (log 2). -/
def Obligations.ExtractSignedGivesTheSignedField : Prop :=
  ∀ (c : Word) (s : State) (start len w v : Nat), c &&& 0xF = 0x9 →
    start = c.toNat / 16 % 64 → len = c.toNat / 1024 % 64 →
    w = ((List.range 8).map (fun i => (s.frame.byte i).toNat * 2 ^ (8 * i))).sum →
    v = w / 2 ^ start % 2 ^ len →
    (s.frame.dlc.toNat ≤ 8 ∧ 1 ≤ len ∧ len ≤ 32 ∧ start + len ≤ 8 * s.frame.dlc.toNat →
      ∃ r : Word, r.toInt = (if v.testBit (len - 1) then (v : Int) - 2 ^ len else (v : Int)) ∧
        exec (decode c) s = .next { s with
          pending := none, result := r, status := ⟨false, s.status.overrun, false⟩ }) ∧
    (¬ (s.frame.dlc.toNat ≤ 8 ∧ 1 ≤ len ∧ len ≤ 32 ∧ start + len ≤ 8 * s.frame.dlc.toNat) →
      exec (decode c) s = .next { s with
        pending := none, result := 0, status := ⟨false, s.status.overrun, true⟩ })

/-- R119: W is the sum of the bytes in their places, frame bit k is bit k mod 8 of byte floor(k / 8), and
bit j of a field at start is frame bit start + j. -/
def Obligations.FrameBitsAreByteBits : Prop :=
  ∀ f : Frame,
    f.word.toNat = ((List.range 8).map (fun i => (f.byte i).toNat * 2 ^ (8 * i))).sum ∧
    (∀ k, k < 64 → f.word.getLsbD k = (f.byte (k / 8)).getLsbD (k % 8)) ∧
    ∀ start len j, start + len ≤ 64 → j < len →
      (f.extractU start len).testBit j = (f.byte ((start + j) / 8)).getLsbD ((start + j) % 8)

/-- R124: the decode routines' raw values are fixed uses of the extractor, and a routine's DLC condition is
the validity of its whole byte field. -/
def Obligations.RoutinesAreFixedExtracts : Prop :=
  ∀ (b : Build) (f : Frame), f.dlc.toNat ≤ 8 →
    f.raw16 b.val.offSpeed = f.extractU (8 * b.val.offSpeed) 16 ∧
    f.raw16 b.val.offRpm = f.extractU (8 * b.val.offRpm) 16 ∧
    (f.byte b.val.offThrottle).toNat = f.extractU (8 * b.val.offThrottle) 8 ∧
    (f.byte b.val.offEngine).toNat % 2 = f.extractU (8 * b.val.offEngine) 1 ∧
    (f.byte b.val.offEngine).toNat / 2 % 8 = f.extractU (8 * b.val.offEngine + 1) 3 ∧
    (f.byte b.val.offFault).toNat % 2 = f.extractU (8 * b.val.offFault) 1 ∧
    ∀ r : Routine, r.applies b.val f = f.fieldValid (8 * r.offset b.val) (8 * r.width)

/-! ## The tracker -/

/-- TRACK_OBSERVE of a stored ID that is late gives RESULT = 2 and changes nothing else: not last_seen, not
count (R150, R152). That the stored IDs are distinct is the invariant R50 (c). -/
def Obligations.LateObserveFlagsAndChangesNothing : Prop :=
  ∀ (c : Word) (s : State) (j : Fin 16), s.track.Inv s.cfg → c &&& 0xF = 0x5 →
    j.val < s.track.count.toNat → s.track.entries[j].id = s.frame.id →
    s.cfg.timeout < (s.frame.ts - s.track.entries[j].lastSeen).toNat →
    exec (decode c) s = .next { s with
      pending := none, result := 2, status := ⟨false, s.status.overrun, false⟩ }

/-- TRACK_OBSERVE of a stored ID that is on time gives RESULT = 0, refreshes last_seen and counts up,
saturating at 2^32 - 1; the other entries and FT_COUNT stay (R150, R153). -/
def Obligations.OnTimeObserveRefreshesTheEntry : Prop :=
  ∀ (c : Word) (s : State) (j : Fin 16), s.track.Inv s.cfg → c &&& 0xF = 0x5 →
    j.val < s.track.count.toNat → s.track.entries[j].id = s.frame.id →
    (s.frame.ts - s.track.entries[j].lastSeen).toNat ≤ s.cfg.timeout →
    ∃ ft : FreqTable, ft.count = s.track.count ∧
      (∀ k : Fin 16, k ≠ j → ft.entries[k] = s.track.entries[k]) ∧
      ft.entries[j].id = s.frame.id ∧ ft.entries[j].lastSeen = s.frame.ts ∧
      ft.entries[j].count.toNat = min (s.track.entries[j].count.toNat + 1) 4294967295 ∧
      exec (decode c) s = .next { s with
        track := ft, pending := none, result := 0, status := ⟨false, s.status.overrun, false⟩ }

/-- R154: TRACK_OBSERVE of an unknown ID with room in the table stores (id, now, 1) at index FT_COUNT and
gives RESULT = 1; with the table full it stores nothing and gives RESULT = 5. -/
def Obligations.UnknownIdIsRegisteredWhileThereIsRoom : Prop :=
  ∀ (c : Word) (s : State), c &&& 0xF = 0x5 →
    (∀ j : Fin 16, j.val < s.track.count.toNat → s.track.entries[j].id ≠ s.frame.id) →
    (s.track.count.toNat < s.cfg.ftCap →
      ∃ ft : FreqTable, ft.count.toNat = s.track.count.toNat + 1 ∧
        (∀ k : Fin 16, ft.entries[k] =
          if k.val = s.track.count.toNat then ⟨s.frame.id, s.frame.ts, 1⟩ else s.track.entries[k]) ∧
        exec (decode c) s = .next { s with
          track := ft, pending := none, result := 1, status := ⟨false, s.status.overrun, false⟩ }) ∧
    (s.cfg.ftCap ≤ s.track.count.toNat →
      exec (decode c) s = .next { s with
        pending := none, result := 5, status := ⟨false, s.status.overrun, false⟩ })

/-- R157: a flagged entry stays flagged. Along any run in which no hardware reset arrives, no SOFT_RESET
completes, and no command that observes the entry's ID completes at a time on time for it, the entry j
keeps its last_seen (and its ID and count), whatever other commands, frames and host accesses come between;
and wherever the run stands, an Observe of that ID at a time more than P_TIMEOUT after last_seen flags and
leaves FT: TRACK_OBSERVE answers RESULT = 2, and ENGINE_EVAL, when its checks 1 and 2 are negative, records
CAN_FREQUENCY. -/
def Obligations.FlaggedEntryStaysFlagged : Prop :=
  ∀ (r : Nat → State) (n : Nat) (j : Fin 16) (e : TrackEntry),
    (r 0).track.Inv (r 0).cfg → j.val < (r 0).track.count.toNat → (r 0).track.entries[j] = e →
    (∀ k, k < n → step (r k) = .next (r (k + 1)) ∧
      (∀ rest, (r k).inputs ≠ .hardwareReset :: rest) ∧
      ∀ p, (r k).pending = some p → (r (k + 1)).pending = none →
        decode p.word ≠ .softReset ∧
        (decode p.word ∈ [.trackObserve, .engineEval, .frameCycle] → (r k).frame.id = e.id →
          (r k).cfg.timeout < ((r k).frame.ts - e.lastSeen).toNat)) →
    (r n).track.entries[j] = e ∧
    ((r n).frame.id = e.id → (r n).cfg.timeout < ((r n).frame.ts - e.lastSeen).toNat →
      (∃ t, exec .trackObserve (r n) = .next t ∧ t.result = 2 ∧ t.track = (r n).track) ∧
      ((r n).rpmSpike = false → (r n).speedExceed = false →
        ∃ t, exec .engineEval (r n) = .next t ∧ t.track = (r n).track ∧
          t.anomaly = ⟨true, 3, 1, (r n).frame.id, (r n).frame.ts⟩))

/-! ## The statistics engine -/

/-- R170, R172: HIST_RECORD writes (ARG_RPM, ARG_SPEED, F.ts) into the slot at HIST_HEAD, moves HIST_HEAD on
modulo P_HIST_CAP, counts up to P_HIST_CAP, writes RESULT = 0, and changes nothing else. -/
def Obligations.HistRecordAppendsTheSample : Prop :=
  ∀ (c : Word) (s : State), c &&& 0xF = 0x6 →
    ∃ h : History,
      (∀ i : Fin 32, h.slots[i] = if i.val = s.hist.head.toNat then
        ⟨s.arg0.extractLsb' 0 16, s.arg0.extractLsb' 16 16, s.frame.ts⟩ else s.hist.slots[i]) ∧
      h.head.toNat = (s.hist.head.toNat + 1) % s.cfg.histCap ∧
      h.count.toNat = min (s.hist.count.toNat + 1) s.cfg.histCap ∧
      exec (decode c) s = .next { s with
        hist := h, pending := none, result := 0, status := ⟨false, s.status.overrun, false⟩ }

/-- R171: after any sequence of Records on the empty buffer the held samples are the last
min(k, P_HIST_CAP) of them, in order, whatever the legal configuration. -/
def Obligations.HistoryIsFirstInFirstOut : Prop :=
  ∀ (b : Build) (xs : List Sample),
    ((xs.foldl (fun h x => h.record b.val x) History.empty).held b.val) =
      xs.reverse.take b.val.histCap ∧
    (xs.foldl (fun h x => h.record b.val x) History.empty).count.toNat =
      min xs.length b.val.histCap

/-- The held slots are the HIST_COUNT slots (HIST_HEAD - k) mod P_HIST_CAP (R42), and HIST_SUM and
HIST_SUMSQ_HI:LO read the sums S and Q over them whole, no bit lost (R44, R45). -/
def Obligations.SumRegistersReadTheHeldSlots : Prop :=
  ∀ s : State, s.hist.Inv s.cfg →
    ∃ held : Finset (Fin 32),
      (∀ i : Fin 32, i ∈ held ↔ ∃ k : Nat, 1 ≤ k ∧ k ≤ s.hist.count.toNat ∧
        (i.val : Int) = ((s.hist.head.toNat : Int) - (k : Int)) % (s.cfg.histCap : Int)) ∧
      held.card = s.hist.count.toNat ∧
      (s.readWord 0x040).toNat = ∑ i ∈ held, s.hist.slots[i].rpm.toNat ∧
      (s.readWord 0x048).toNat * 2 ^ 32 + (s.readWord 0x044).toNat =
        ∑ i ∈ held, s.hist.slots[i].rpm.toNat ^ 2

/-- R175, R178: HIST_EVALUATE computes the test in integers: RESULT is 2 with too few samples, 4 when D = 0,
and otherwise 1 exactly when E*E > P_SIGMA*P_SIGMA*D; no state but RESULT and the command's status
changes (R179). -/
def Obligations.HistEvaluateIsTheIntegerTest : Prop :=
  ∀ (c : Word) (s : State) (n S Q : Nat) (D E : Int), c &&& 0xF = 0x7 →
    n = s.hist.count.toNat → S = s.hist.sumRpm s.cfg → Q = s.hist.sumSqRpm s.cfg →
    D = n * Q - S * S → E = n * (s.arg0.toNat % 65536 : Nat) - S →
    ∃ r : Word,
      exec (decode c) s = .next { s with
        pending := none, result := r, status := ⟨false, s.status.overrun, false⟩ } ∧
      (n < s.cfg.minSamples → r = 2) ∧
      (s.cfg.minSamples ≤ n → D = 0 → r = 4) ∧
      (s.cfg.minSamples ≤ n → D ≠ 0 → s.cfg.sigma * s.cfg.sigma * D < E * E → r = 1) ∧
      (s.cfg.minSamples ≤ n → D ≠ 0 → E * E ≤ s.cfg.sigma * s.cfg.sigma * D → r = 0)

/-- R176: the integer test equals the source's test in real numbers (R174), for every buffer and candidate:
FLAGGED exactly when n >= P_MIN_SAMPLES, sd > 0 and |c - mean| > P_SIGMA * sd, with the population mean
and variance; D >= 0, and D = 0 exactly when every held rpm is equal. -/
def Obligations.IntegerTestIsTheRealThreeSigmaTest : Prop :=
  ∀ (s : State) (xs : List ℝ) (mean variance sd : ℝ),
    xs = (s.hist.held s.cfg).map (fun x => (x.rpm.toNat : ℝ)) →
    mean = xs.sum / xs.length →
    variance = (xs.map (fun x => (x - mean) ^ 2)).sum / xs.length →
    sd = Real.sqrt variance →
    (∃ t, exec .histEvaluate s = .next t ∧
      (t.result.getLsbD 0 = true ↔
        s.cfg.minSamples ≤ xs.length ∧ 0 < sd ∧
          (s.cfg.sigma : ℝ) * sd < |((s.arg0.toNat % 65536 : Nat) : ℝ) - mean|)) ∧
    0 ≤ s.hist.spread s.cfg ∧
    (s.hist.spread s.cfg = 0 ↔ ∀ x ∈ xs, ∀ y ∈ xs, x = y)

/-! ## The engine -/

/-- R193, check 1: ENGINE_EVAL records RPM_SPIKE (type 1, severity 2) exactly when a baseline exists and
|VS.rpm - PREV_RPM| > P_SPIKE; then FT, HIST and the baseline are not written (R198, R200). Only a cycle
that records no anomaly writes the baseline (R199). -/
def Obligations.RpmSpikeIsTheFirstCheck : Prop :=
  ∀ (c : Word) (s : State), c &&& 0xF = 0xA →
    (s.baseline.valid = true ∧
        (s.cfg.spike : Int) < |(s.vs.rpm.toNat : Int) - (s.baseline.prevRpm.toNat : Int)| →
      exec (decode c) s = .next { s with
        anomaly := ⟨true, 1, 2, s.frame.id, s.frame.ts⟩
        pending := none, result := 0x211, status := ⟨false, s.status.overrun, false⟩ }) ∧
    (¬ (s.baseline.valid = true ∧
        (s.cfg.spike : Int) < |(s.vs.rpm.toNat : Int) - (s.baseline.prevRpm.toNat : Int)|) →
      ∃ t, exec (decode c) s = .next t ∧ t.anomaly.type ≠ 1 ∧ (t.baseline ≠ s.baseline → t.anomaly.has = false))

/-- R194, check 2: when check 1 is negative, ENGINE_EVAL records SPEED_EXCEED (type 2, severity 2) exactly
when VS.speed > P_SPEED_MAX; then FT, HIST and the baseline are not written. -/
def Obligations.SpeedExceedIsTheSecondCheck : Prop :=
  ∀ (c : Word) (s : State), c &&& 0xF = 0xA → s.rpmSpike = false →
    (s.cfg.speedMax < s.vs.speed.toNat →
      exec (decode c) s = .next { s with
        anomaly := ⟨true, 2, 2, s.frame.id, s.frame.ts⟩
        pending := none, result := 0x221, status := ⟨false, s.status.overrun, false⟩ }) ∧
    (s.vs.speed.toNat ≤ s.cfg.speedMax →
      ∃ t, exec (decode c) s = .next t ∧ t.anomaly.type ≠ 2)

/-- R195, check 3: when checks 1 and 2 are negative, ENGINE_EVAL delegates to Observe, as TRACK_OBSERVE on the
same state shows it: FT becomes what TRACK_OBSERVE leaves, and CAN_FREQUENCY (type 3, severity 1) is
recorded exactly when TRACK_OBSERVE answers Flagged; then HIST and the baseline are not written. -/
def Obligations.CanFrequencyIsTheThirdCheck : Prop :=
  ∀ (c : Word) (s o : State), c &&& 0xF = 0xA → s.rpmSpike = false → s.speedExceed = false →
    exec .trackObserve s = .next o →
    (o.result = 2 →
      exec (decode c) s = .next { s with
        track := o.track, anomaly := ⟨true, 3, 1, s.frame.id, s.frame.ts⟩
        pending := none, result := 0x131, status := ⟨false, s.status.overrun, false⟩ }) ∧
    (o.result ≠ 2 →
      ∃ t, exec (decode c) s = .next t ∧ t.track = o.track ∧ t.anomaly.type ≠ 3)

/-- R196, check 4: when checks 1, 2 and 3 are negative, ENGINE_EVAL records ENGINE_INCONSISTENCY (type 4,
severity 3) exactly when the engine is off and VS.rpm > 0; Observe's write of FT stays (R200). -/
def Obligations.EngineInconsistencyIsTheFourthCheck : Prop :=
  ∀ (c : Word) (s o : State), c &&& 0xF = 0xA → s.rpmSpike = false → s.speedExceed = false →
    exec .trackObserve s = .next o → o.result ≠ 2 →
    (s.vs.engineStatus = false ∧ 0 < s.vs.rpm.toNat →
      exec (decode c) s = .next { s with
        track := o.track, anomaly := ⟨true, 4, 3, s.frame.id, s.frame.ts⟩
        pending := none, result := 0x341, status := ⟨false, s.status.overrun, false⟩ }) ∧
    (¬ (s.vs.engineStatus = false ∧ 0 < s.vs.rpm.toNat) →
      ∃ t, exec (decode c) s = .next t ∧ t.anomaly.type ≠ 4)

/-- R197, R199, check 5 and the unflagged outcome: when checks 1 to 4 are negative, ENGINE_EVAL delegates to
Evaluate of VS.rpm, as HIST_EVALUATE with ARG_RPM = VS.rpm shows it. Flagged: STATISTICAL_DEVIATION
(type 5, severity 1), HIST and baseline not written. Not flagged: the record is cleared, the sample
(VS.rpm, VS.speed, F.ts) is appended as HIST_RECORD would, and the baseline becomes VS.rpm. -/
def Obligations.FifthCheckAndTheUnflaggedOutcome : Prop :=
  ∀ (c : Word) (s o e r : State), c &&& 0xF = 0xA → s.rpmSpike = false → s.speedExceed = false →
    exec .trackObserve s = .next o → o.result ≠ 2 → s.engineInconsistent = false →
    exec .histEvaluate { s with arg0 := s.vs.speed ++ s.vs.rpm } = .next e →
    exec .histRecord { s with arg0 := s.vs.speed ++ s.vs.rpm } = .next r →
    (e.result = 1 →
      exec (decode c) s = .next { s with
        track := o.track, anomaly := ⟨true, 5, 1, s.frame.id, s.frame.ts⟩
        pending := none, result := 0x151, status := ⟨false, s.status.overrun, false⟩ }) ∧
    (e.result ≠ 1 →
      exec (decode c) s = .next { s with
        track := o.track, anomaly := ⟨false, 0, 0, 0, 0⟩, hist := r.hist
        baseline := ⟨s.vs.rpm, true⟩
        pending := none, result := 0, status := ⟨false, s.status.overrun, false⟩ })

/-- R205: FRAME_CYCLE is DECODE and then ENGINE_EVAL on the updated VS, as one command, with the decode bits
at RESULT[18:16]. -/
def Obligations.FrameCycleIsDecodeThenEngineEval : Prop :=
  ∀ (c : Word) (s : State), c &&& 0xF = 0x1 →
    ∃ d e, exec .decode s = .next d ∧ exec .engineEval d = .next e ∧
      exec (decode c) s = .next { e with result := e.result ||| d.result <<< 16 }

/-- R203: after FRAME_CYCLE or ENGINE_EVAL, RESULT has HAS_ANOMALY at [0], ANOM_TYPE at [6:4], ANOM_SEVERITY
at [10:8], the decode step's {MALFORMED, RECOGNISED, APPLIED} at [18:16] (0 for ENGINE_EVAL), every other
bit 0; and RESULT[10:0] = ANOM_STATUS[10:0]. -/
def Obligations.CycleResultSummarisesTheRecord : Prop :=
  ∀ s d t u : State, exec .decode s = .next d → exec .frameCycle s = .next t →
    exec .engineEval s = .next u →
    t.result = 0#13 ++ d.result.extractLsb' 0 3 ++ 0#5 ++ t.anomaly.severity ++ 0#1 ++ t.anomaly.type ++
      0#3 ++ BitVec.ofBool t.anomaly.has ∧
    u.result = 0#13 ++ 0#3 ++ 0#5 ++ u.anomaly.severity ++ 0#1 ++ u.anomaly.type ++
      0#3 ++ BitVec.ofBool u.anomaly.has ∧
    t.result &&& 0x7FF = t.readWord 0x030 &&& 0x7FF ∧
    u.result &&& 0x7FF = u.readWord 0x030 &&& 0x7FF

/-- R191: no value of the record from an earlier cycle survives a cycle: states that differ only in the record
(and in RESULT) go to the same state. -/
def Obligations.NoEarlierAnomalySurvivesACycle : Prop :=
  ∀ (s : State) (a : Anomaly) (r : Word),
    (∃ t, exec .engineEval s = .next t ∧
      exec .engineEval { s with anomaly := a, result := r } = .next t) ∧
    ∃ t, exec .frameCycle s = .next t ∧
      exec .frameCycle { s with anomaly := a, result := r } = .next t

/-- R208: a stale baseline repeats. After a cycle that records RPM_SPIKE the baseline and HIST are as before,
and any later cycle whose VS.rpm differs from PREV_RPM by more than P_SPIKE records RPM_SPIKE again. -/
def Obligations.StaleBaselineRepeatsTheSpike : Prop :=
  ∀ (s t : State) (v : VehicleState) (f : Frame), exec .engineEval s = .next t →
    t.anomaly.type = 1 →
    (s.cfg.spike : Int) < |(v.rpm.toNat : Int) - (s.baseline.prevRpm.toNat : Int)| →
    ∃ u, exec .engineEval { t with vs := v, frame := f } = .next u ∧
      u.anomaly = ⟨true, 1, 2, f.id, f.ts⟩ ∧ u.baseline = s.baseline ∧ u.hist = s.hist

/-! ## The whole machine -/

/-- R234: only the named commands write the anomaly record and the baseline, HIST, FT, VS and the snapshot;
SOFT_RESET writes all of these; no command writes the input registers. -/
def Obligations.OnlyNamedCommandsWriteEachElement : Prop :=
  ∀ (i : Instr) (s : State), ∃ t, exec i s = .next t ∧
    (t.anomaly ≠ s.anomaly ∨ t.baseline ≠ s.baseline →
      i ∈ [.frameCycle, .engineEval, .softReset]) ∧
    (t.hist ≠ s.hist → i ∈ [.frameCycle, .engineEval, .histRecord, .softReset]) ∧
    (t.track ≠ s.track → i ∈ [.frameCycle, .engineEval, .trackObserve, .softReset]) ∧
    (t.vs ≠ s.vs → i ∈ [.frameCycle, .decode, .decoderReset, .softReset]) ∧
    (t.snap ≠ s.snap → i ∈ [.getState, .softReset]) ∧
    (i = .softReset → t.anomaly = State.reset.anomaly ∧ t.baseline = State.reset.baseline ∧
      t.hist = State.reset.hist ∧ t.track = State.reset.track ∧ t.vs = State.reset.vs ∧
      t.snap = State.reset.snap) ∧
    t.frame = s.frame ∧ t.arg0 = s.arg0

/-- Every command ends the busy state and writes CMD_ILLEGAL and EXT_INVALID afresh: CMD_ILLEGAL is 1 exactly
after a reserved opcode, EXT_INVALID exactly after an extract of an invalid field, never both; OVERRUN,
the parameters and the outside world are as before (R32, R231, R253). That a reserved opcode and an extract
of an invalid field run at all, where R94, R120 and 93 I12, I14 have a model fault, is the model's choice
(log 1, 2). -/
def Obligations.CommandsWriteStatusAfresh : Prop :=
  ∀ (i : Instr) (s : State), ∃ t, exec i s = .next t ∧ t.pending = none ∧
    (t.status.cmdIllegal = true ↔ i ∈ [.reservedB, .reservedC, .reservedD, .reservedE]) ∧
    (t.status.extInvalid = true ↔ ∃ start len, (i = .extractU start len ∨ i = .extractS start len) ∧
      ¬ (s.frame.dlc.toNat ≤ 8 ∧ 1 ≤ len ∧ len ≤ 32 ∧ start + len ≤ 8 * s.frame.dlc.toNat)) ∧
    ¬ (t.status.cmdIllegal = true ∧ t.status.extInvalid = true) ∧
    t.status.overrun = s.status.overrun ∧
    t.build = s.build ∧ t.inputs = s.inputs ∧ t.answers = s.answers

/-- From every state, every step answers a next state. R250 says of the hardware that "No command, register
access or input value stops the block"; that this model does not stop either, in the cases where the spec
lets a model fault or refuse, is the model's choice (log 16, with log 1-4). -/
def Obligations.NothingStopsTheBlock : Prop :=
  ∀ s : State, ∃ t, step s = .next t

/-- The invariant of R50, with the ranges of R21, the layout of R42, the pairs of R38 and the exclusion of
R253, is kept by every step, from every state that meets it. -/
def Obligations.EveryStepKeepsTheInvariant : Prop :=
  ∀ s t : State, s.Inv → step s = .next t → t.Inv

/-- The state after hardware reset meets the invariant of R50. -/
def Obligations.ResetMeetsTheBlockInvariant : Prop :=
  State.reset.Inv

/-- R22: only these change VS: the completion of DECODE or FRAME_CYCLE on a recognised frame with a
sufficient DLC, of DECODER_RESET, of SOFT_RESET, and hardware reset. And no step changes the build-time
parameters (R10, R53 (a), R82). -/
def Obligations.OnlyDecodesAndResetsChangeTheVehicleState : Prop :=
  ∀ s t : State, step s = .next t →
    t.build = s.build ∧
    (t.vs ≠ s.vs →
      (∃ rest, s.inputs = .hardwareReset :: rest) ∨
      ∃ p, s.pending = some p ∧ t.pending = none ∧
        (decode p.word = .decoderReset ∨ decode p.word = .softReset ∨
          ((decode p.word = .decode ∨ decode p.word = .frameCycle) ∧
            ∃ r : Routine, routineOf s.cfg s.frame.id = some r ∧
              r.offset s.cfg + r.width ≤ s.frame.dlc.toNat ∧ s.frame.dlc.toNat ≤ 8)))

/-- A step that is none of the cases on which the spec's model treatments stop (reserved opcode, invalid
extract, unsupported access, write while busy: 93 I12, I14, I15, I18) sets no error bit of STATUS. That
such steps have the hardware's effect at all is the model's choice (log 1-4). -/
def Obligations.StepsWithoutViolationSetNoErrorBit : Prop :=
  ∀ s t : State, s.violation = none → s.status = ⟨false, false, false⟩ → step s = .next t →
    t.status = ⟨false, false, false⟩

/-! ## The register window and the host -/

/-- A read has no side effect (R75). A read of a supported offset, idle or while the command is pending,
returns the register's value and changes no state of the block; every register reads as before; only
STATUS.BUSY tells that a command is pending. The list of answers and the count of landed accesses are the
model's (log 6, 8), and so is that a busy read of STATUS shows an OVERRUN set in the same busy window
(log 26). -/
def Obligations.ReadsHaveNoSideEffect : Prop :=
  (∀ (s : State) (off : Nat) (rest : List Input), off % 4 = 0 → off < 4096 →
    s.inputs = .access (.read off 4) :: rest →
    (s.pending = none →
      ∃ t, step s = .next t ∧ t = { s with inputs := rest, answers := s.readWord off :: s.answers } ∧
        ∀ o, t.readWord o = s.readWord o) ∧
    (∀ p, s.pending = some p → p.landed < s.cfg.cmdLatency →
      ∃ t, step s = .next t ∧
        t = { s with
          inputs := rest
          answers := s.readWord off :: s.answers
          pending := some { p with landed := p.landed + 1 } } ∧
        ∀ o, t.readWord o = s.readWord o)) ∧
  ∀ s : State, (s.readWord 0x01C).getLsbD 0 = s.pending.isSome

/-- A supported write while BUSY = 1, whatever its offset, is ignored and sets OVERRUN; no command starts, and
the pending one goes on (the hardware's effect in R76). That the model runs it, where 93 I18 has a model
fault, and the count of landed accesses are the model's choice (log 4, 6). -/
def Obligations.WriteWhileBusyOnlySetsOverrun : Prop :=
  ∀ (s : State) (p : Pending) (off : Nat) (v : Word) (rest : List Input), s.pending = some p →
    off % 4 = 0 → off < 4096 → p.landed < s.cfg.cmdLatency →
    s.inputs = .access (.write off 4 v) :: rest →
    step s = .next { s with
      inputs := rest
      status := { s.status with overrun := true }
      pending := some { p with landed := p.landed + 1 } }

/-- Writes while idle (R77's MemWrite, R26-R30, R32): each input register stores its bits and reads them back
with the reserved bits 0, and nothing else changes; a write of STATUS clears OVERRUN exactly when bit 2
is 1 and changes nothing else. -/
def Obligations.IdleWritesReachTheirRegister : Prop :=
  ∀ (s : State) (off : Nat) (v : Word) (rest : List Input), s.pending = none →
    s.inputs = .access (.write off 4 v) :: rest →
    ∃ t, step s = .next t ∧
      (off = 0x000 → t = { s with
        inputs := rest, frame := { s.frame with id := v.extractLsb' 0 11 } } ∧
        t.readWord 0x000 = v &&& 0x7FF) ∧
      (off = 0x004 → t = { s with
        inputs := rest, frame := { s.frame with dlc := v.extractLsb' 0 4 } } ∧
        t.readWord 0x004 = v &&& 0xF) ∧
      (off = 0x008 → t = { s with inputs := rest, frame := { s.frame with data0 := v } } ∧
        t.readWord 0x008 = v) ∧
      (off = 0x00C → t = { s with inputs := rest, frame := { s.frame with data1 := v } } ∧
        t.readWord 0x00C = v) ∧
      (off = 0x010 → t = { s with inputs := rest, frame := { s.frame with ts := v } } ∧
        t.readWord 0x010 = v) ∧
      (off = 0x014 → t = { s with inputs := rest, arg0 := v } ∧ t.readWord 0x014 = v) ∧
      (off = 0x01C → t = { s with
        inputs := rest
        status := { s.status with overrun := s.status.overrun && !v.getLsbD 2 } })

/-- Accesses that do nothing. R74: an offset the map does not name reads 0, a reserved bit reads 0, and an
idle write of a read-only register, a window or an unnamed offset changes nothing. R73: an access of
another size, misaligned or outside the window, idle or busy, changes nothing of the block, not even
OVERRUN, and reads 0 (the hardware's answer; that the model runs it is the model's choice, log 3, and so is
that it counts as landed while busy, log 21). -/
def Obligations.IgnoredAccessesDoNothing : Prop :=
  (∀ (s : State) (off : Nat), off % 4 = 0 →
    (0x050 ≤ off ∧ off < 0x100) ∨ (0x300 ≤ off ∧ off < 0x1000) ∨
      (0x200 ≤ off ∧ off < 0x300 ∧ off % 16 = 12) → s.readWord off = 0) ∧
  (∀ s : State,
    s.readWord 0x000 &&& 0xFFFFF800 = 0 ∧ s.readWord 0x004 &&& 0xFFFFFFF0 = 0 ∧
    s.readWord 0x01C &&& 0xFFFFFFF0 = 0 ∧ s.readWord 0x028 &&& 0xFFFCF800 = 0 ∧
    s.readWord 0x030 &&& 0xF800F88E = 0 ∧ s.readWord 0x038 &&& 0xFFFE0000 = 0 ∧
    s.readWord 0x03C &&& 0xFFFFE0C0 = 0 ∧ s.readWord 0x040 &&& 0xFFE00000 = 0 ∧
    s.readWord 0x048 &&& 0xFFFFFFE0 = 0 ∧ s.readWord 0x04C &&& 0xFFFFFFE0 = 0) ∧
  (∀ (s : State) (off : Nat) (v : Word) (rest : List Input), s.pending = none →
    off % 4 = 0 → 0x020 ≤ off → off < 4096 → s.inputs = .access (.write off 4 v) :: rest →
    step s = .next { s with inputs := rest }) ∧
  ∀ (s : State) (off size : Nat) (v : Word) (rest : List Input),
    ¬ (size = 4 ∧ off % 4 = 0 ∧ off < 4096) →
    (s.pending = none →
      (s.inputs = .access (.write off size v) :: rest → step s = .next { s with inputs := rest }) ∧
      (s.inputs = .access (.read off size) :: rest →
        step s = .next { s with inputs := rest, answers := 0 :: s.answers })) ∧
    ∀ p, s.pending = some p → p.landed < s.cfg.cmdLatency →
      (s.inputs = .access (.write off size v) :: rest →
        step s = .next { s with
          inputs := rest, pending := some { p with landed := p.landed + 1 } }) ∧
      (s.inputs = .access (.read off size) :: rest →
        step s = .next { s with
          inputs := rest
          answers := 0 :: s.answers
          pending := some { p with landed := p.landed + 1 } })

/-- The HIST and FT windows and their status words (R43, R46, R48, R49). -/
def Obligations.WindowsShowSlotsAndEntries : Prop :=
  ∀ s : State,
    s.readWord 0x03C = 0#19 ++ s.hist.head ++ 0#2 ++ s.hist.count ∧
    s.readWord 0x04C = 0#27 ++ s.track.count ∧
    (∀ i : Fin 32,
      (i.val < s.cfg.histCap →
        s.readWord (0x100 + 8 * i.val) = s.hist.slots[i].speed ++ s.hist.slots[i].rpm ∧
        s.readWord (0x104 + 8 * i.val) = s.hist.slots[i].ts) ∧
      (s.cfg.histCap ≤ i.val ∨ (s.hist.Inv s.cfg ∧ s.hist.count.toNat ≤ i.val) →
        s.readWord (0x100 + 8 * i.val) = 0 ∧ s.readWord (0x104 + 8 * i.val) = 0)) ∧
    ∀ j : Fin 16,
      (j.val < s.track.count.toNat →
        s.readWord (0x200 + 16 * j.val) = 1#1 ++ 0#20 ++ s.track.entries[j].id ∧
        s.readWord (0x204 + 16 * j.val) = s.track.entries[j].lastSeen ∧
        s.readWord (0x208 + 16 * j.val) = s.track.entries[j].count ∧
        s.readWord (0x20C + 16 * j.val) = 0) ∧
      (s.track.count.toNat ≤ j.val →
        s.readWord (0x200 + 16 * j.val) = 0 ∧ s.readWord (0x204 + 16 * j.val) = 0 ∧
        s.readWord (0x208 + 16 * j.val) = 0 ∧ s.readWord (0x20C + 16 * j.val) = 0)

/-- R72: the window is little-endian. Byte k of the register at off is its bits [8k+7:8k]; so frame data byte
i sits at offset 0x008 + i, and FRAME_DATA0 and FRAME_DATA1 read as the 64-bit word W. -/
def Obligations.TheWindowIsLittleEndian : Prop :=
  ∀ s : State,
    (∀ off k, off % 4 = 0 → k < 4 →
      (s.windowByte (off + k)).toNat = (s.readWord off).toNat / 2 ^ (8 * k) % 256) ∧
    (∀ i, i < 8 → s.windowByte (0x008 + i) = s.frame.byte i) ∧
    s.readWord 0x00C ++ s.readWord 0x008 = s.frame.word

/-- BUSY ends within P_CMD_LATENCY (R290), whatever the host does meanwhile. With no hardware reset among the
inputs, after at most that many landed accesses the next step is the completion of the pending word: exec
of its decoding, on a state that differs from the first only in OVERRUN, the inputs, the answers and the
count of landed accesses. And with any inputs, a reset that abandons the command included, the block is
idle after at most P_CMD_LATENCY + 1 steps. The unit of the bound is the model's (log 6). -/
def Obligations.BusyEndsWithinTheLatency : Prop :=
  (∀ (s : State) (p : Pending), s.pending = some p → .hardwareReset ∉ s.inputs →
    ∃ (k landed : Nat) (overrun : Bool) (now rest : List Input) (ans : List Word) (u : State),
      k ≤ s.cfg.cmdLatency ∧ Sys2Proof.core.run k s = .next u ∧
      u = { s with
        status := { s.status with overrun := overrun }, pending := some ⟨p.word, landed⟩
        inputs := now, answers := ans } ∧
      step u = exec (decode p.word) { u with inputs := rest }) ∧
  ∀ s : State, s.pending.isSome = true →
    ∃ k t, k ≤ s.cfg.cmdLatency + 1 ∧ Sys2Proof.core.run k s = .next t ∧ t.pending = none

/-- Whatever the draw of busy polls, CMD and WAIT run the command once and reach the same state (R80, R101,
R102, R104): after the CMD write, k polls that read BUSY = 1, the completion and one poll that reads 0,
the state is what exec gives on the idle state, and only the answers tell k. The form of the schedule, the
unit of the bound on k and the form of WAIT's expansion are the model's (log 5, 6, 24). -/
def Obligations.CommandThenWaitRunsTheCommand : Prop :=
  ∀ (i : Instr) (s : State) (k : Nat) (rest : List Input), i.wellFormed = true → s.pending = none →
    k ≤ s.cfg.cmdLatency → s.inputs = expand 0 (.cmd i) ++ expand k .wait ++ rest →
    ∃ t, exec i { s with inputs := rest } = .next t ∧
      (t.readWord 0x01C).getLsbD 0 = false ∧
      Sys2Proof.core.run (k + 3) s = .next { t with
        answers := t.readWord 0x01C :: (List.replicate k (s.readWord 0x01C ||| 1) ++ s.answers) }

/-- R103: a FRAME line stages the frame, omitted bytes 0, and an ARG line stages ARG0; nothing else
changes. -/
def Obligations.FrameAndArgLinesStageTheInputs : Prop :=
  ∀ (s : State) (rest : List Input), s.pending = none →
    (∀ (id dlc ts : Word) (bytes : List Byte), bytes.length ≤ 8 →
      s.inputs = expand 0 (.frame id dlc bytes ts) ++ rest →
      ∃ f : Frame, f.id = id.extractLsb' 0 11 ∧ f.dlc = dlc.extractLsb' 0 4 ∧ f.ts = ts ∧
        (∀ i, i < 8 → f.byte i = (bytes[i]?).getD 0) ∧
        Sys2Proof.core.run 5 s = .next { s with frame := f, inputs := rest }) ∧
    (∀ rpm speed : BitVec 16, s.inputs = expand 0 (.arg rpm speed) ++ rest →
      Sys2Proof.core.run 1 s = .next { s with arg0 := speed ++ rpm, inputs := rest })

/-- What the registers outside the windows read, each bit at its place: the input registers (R26-R30), STATUS
{EXT_INVALID, OVERRUN, CMD_ILLEGAL, BUSY} at [3:0] (R32), RESULT (R33), the snapshot (R34-R36), ANOM_STATUS
{CAN_ID at [26:16], SEVERITY at [10:8], TYPE at [6:4], HAS_ANOMALY at [0]} and ANOM_TS (R37), BASELINE
{VALID at [16], PREV_RPM at [15:0]} (R39); every other bit reads 0. That a busy read of STATUS shows an
OVERRUN set in the same busy window is the model's choice (log 26). -/
def Obligations.RegistersReadTheirElements : Prop :=
  ∀ s : State,
    s.readWord 0x000 = 0#21 ++ s.frame.id ∧ s.readWord 0x004 = 0#28 ++ s.frame.dlc ∧
    s.readWord 0x008 = s.frame.data0 ∧ s.readWord 0x00C = s.frame.data1 ∧
    s.readWord 0x010 = s.frame.ts ∧ s.readWord 0x014 = s.arg0 ∧
    s.readWord 0x01C = 0#28 ++ BitVec.ofBool s.status.extInvalid ++ BitVec.ofBool s.status.overrun ++
      BitVec.ofBool s.status.cmdIllegal ++ BitVec.ofBool s.pending.isSome ∧
    s.readWord 0x020 = s.result ∧
    s.readWord 0x024 = s.snap.rpm ++ s.snap.speed ∧
    s.readWord 0x028 = 0#14 ++ BitVec.ofBool s.snap.faultStatus ++ BitVec.ofBool s.snap.engineStatus ++
      0#5 ++ s.snap.gear ++ s.snap.throttle ∧
    s.readWord 0x02C = s.snap.lastUpdate ∧
    s.readWord 0x030 = 0#5 ++ s.anomaly.canId ++ 0#5 ++ s.anomaly.severity ++ 0#1 ++ s.anomaly.type ++
      0#3 ++ BitVec.ofBool s.anomaly.has ∧
    s.readWord 0x034 = s.anomaly.ts ∧
    s.readWord 0x038 = 0#15 ++ BitVec.ofBool s.baseline.valid ++ s.baseline.prevRpm
end

