-- ==== Sys2Proof/Laws/State.lean ====
section
/-!
SUPPORT. One lemma per field for each named update of State, so that no later proof unfolds a record
update.
-/

namespace Sys2Proof.Machine

/-! Completing a command (R231). -/

@[simp] theorem State.finishWith_vs (s : State) (a b : Bool) (r : Word) :
    (s.finishWith a b r).vs = s.vs := rfl

@[simp] theorem State.finishWith_frame (s : State) (a b : Bool) (r : Word) :
    (s.finishWith a b r).frame = s.frame := rfl

@[simp] theorem State.finishWith_arg0 (s : State) (a b : Bool) (r : Word) :
    (s.finishWith a b r).arg0 = s.arg0 := rfl

@[simp] theorem State.finishWith_status (s : State) (a b : Bool) (r : Word) :
    (s.finishWith a b r).status = ⟨a, s.status.overrun, b⟩ := rfl

@[simp] theorem State.finishWith_result (s : State) (a b : Bool) (r : Word) :
    (s.finishWith a b r).result = r := rfl

@[simp] theorem State.finishWith_snap (s : State) (a b : Bool) (r : Word) :
    (s.finishWith a b r).snap = s.snap := rfl

@[simp] theorem State.finishWith_anomaly (s : State) (a b : Bool) (r : Word) :
    (s.finishWith a b r).anomaly = s.anomaly := rfl

@[simp] theorem State.finishWith_baseline (s : State) (a b : Bool) (r : Word) :
    (s.finishWith a b r).baseline = s.baseline := rfl

@[simp] theorem State.finishWith_hist (s : State) (a b : Bool) (r : Word) :
    (s.finishWith a b r).hist = s.hist := rfl

@[simp] theorem State.finishWith_track (s : State) (a b : Bool) (r : Word) :
    (s.finishWith a b r).track = s.track := rfl

@[simp] theorem State.finishWith_pending (s : State) (a b : Bool) (r : Word) :
    (s.finishWith a b r).pending = .none := rfl

@[simp] theorem State.finishWith_build (s : State) (a b : Bool) (r : Word) :
    (s.finishWith a b r).build = s.build := rfl

@[simp] theorem State.finishWith_inputs (s : State) (a b : Bool) (r : Word) :
    (s.finishWith a b r).inputs = s.inputs := rfl

@[simp] theorem State.finishWith_answers (s : State) (a b : Bool) (r : Word) :
    (s.finishWith a b r).answers = s.answers := rfl

/-! Completing a command that sets no status bit (R231). -/

@[simp] theorem State.finish_vs (s : State) (r : Word) :
    (s.finish r).vs = s.vs := rfl

@[simp] theorem State.finish_frame (s : State) (r : Word) :
    (s.finish r).frame = s.frame := rfl

@[simp] theorem State.finish_arg0 (s : State) (r : Word) :
    (s.finish r).arg0 = s.arg0 := rfl

@[simp] theorem State.finish_status (s : State) (r : Word) :
    (s.finish r).status = ⟨false, s.status.overrun, false⟩ := rfl

@[simp] theorem State.finish_result (s : State) (r : Word) :
    (s.finish r).result = r := rfl

@[simp] theorem State.finish_snap (s : State) (r : Word) :
    (s.finish r).snap = s.snap := rfl

@[simp] theorem State.finish_anomaly (s : State) (r : Word) :
    (s.finish r).anomaly = s.anomaly := rfl

@[simp] theorem State.finish_baseline (s : State) (r : Word) :
    (s.finish r).baseline = s.baseline := rfl

@[simp] theorem State.finish_hist (s : State) (r : Word) :
    (s.finish r).hist = s.hist := rfl

@[simp] theorem State.finish_track (s : State) (r : Word) :
    (s.finish r).track = s.track := rfl

@[simp] theorem State.finish_pending (s : State) (r : Word) :
    (s.finish r).pending = .none := rfl

@[simp] theorem State.finish_build (s : State) (r : Word) :
    (s.finish r).build = s.build := rfl

@[simp] theorem State.finish_inputs (s : State) (r : Word) :
    (s.finish r).inputs = s.inputs := rfl

@[simp] theorem State.finish_answers (s : State) (r : Word) :
    (s.finish r).answers = s.answers := rfl

/-! Hardware reset (R270). -/

@[simp] theorem State.hardwareReset_vs (s : State) :
    (s.hardwareReset).vs = VehicleState.zero := rfl

@[simp] theorem State.hardwareReset_frame (s : State) :
    (s.hardwareReset).frame = ⟨0, 0, 0, 0, 0⟩ := rfl

@[simp] theorem State.hardwareReset_arg0 (s : State) :
    (s.hardwareReset).arg0 = 0 := rfl

@[simp] theorem State.hardwareReset_status (s : State) :
    (s.hardwareReset).status = ⟨false, false, false⟩ := rfl

@[simp] theorem State.hardwareReset_result (s : State) :
    (s.hardwareReset).result = 0 := rfl

@[simp] theorem State.hardwareReset_snap (s : State) :
    (s.hardwareReset).snap = VehicleState.zero := rfl

@[simp] theorem State.hardwareReset_anomaly (s : State) :
    (s.hardwareReset).anomaly = Anomaly.none := rfl

@[simp] theorem State.hardwareReset_baseline (s : State) :
    (s.hardwareReset).baseline = Baseline.none := rfl

@[simp] theorem State.hardwareReset_hist (s : State) :
    (s.hardwareReset).hist = History.empty := rfl

@[simp] theorem State.hardwareReset_track (s : State) :
    (s.hardwareReset).track = FreqTable.empty := rfl

@[simp] theorem State.hardwareReset_pending (s : State) :
    (s.hardwareReset).pending = .none := rfl

@[simp] theorem State.hardwareReset_build (s : State) :
    (s.hardwareReset).build = s.build := rfl

@[simp] theorem State.hardwareReset_inputs (s : State) :
    (s.hardwareReset).inputs = s.inputs := rfl

@[simp] theorem State.hardwareReset_answers (s : State) :
    (s.hardwareReset).answers = s.answers := rfl

/-! SOFT_RESET's effect (R232). -/

@[simp] theorem State.softReset_vs (s : State) :
    (s.softReset).vs = VehicleState.zero := rfl

@[simp] theorem State.softReset_frame (s : State) :
    (s.softReset).frame = s.frame := rfl

@[simp] theorem State.softReset_arg0 (s : State) :
    (s.softReset).arg0 = s.arg0 := rfl

@[simp] theorem State.softReset_status (s : State) :
    (s.softReset).status = ⟨false, s.status.overrun, false⟩ := rfl

@[simp] theorem State.softReset_result (s : State) :
    (s.softReset).result = 0 := rfl

@[simp] theorem State.softReset_snap (s : State) :
    (s.softReset).snap = VehicleState.zero := rfl

@[simp] theorem State.softReset_anomaly (s : State) :
    (s.softReset).anomaly = Anomaly.none := rfl

@[simp] theorem State.softReset_baseline (s : State) :
    (s.softReset).baseline = Baseline.none := rfl

@[simp] theorem State.softReset_hist (s : State) :
    (s.softReset).hist = History.empty := rfl

@[simp] theorem State.softReset_track (s : State) :
    (s.softReset).track = FreqTable.empty := rfl

@[simp] theorem State.softReset_pending (s : State) :
    (s.softReset).pending = .none := rfl

@[simp] theorem State.softReset_build (s : State) :
    (s.softReset).build = s.build := rfl

@[simp] theorem State.softReset_inputs (s : State) :
    (s.softReset).inputs = s.inputs := rfl

@[simp] theorem State.softReset_answers (s : State) :
    (s.softReset).answers = s.answers := rfl

/-! The flagged outcome of a cycle (R198). -/

@[simp] theorem State.flag_vs (s : State) (k : AnomalyType) :
    (s.flag k).vs = s.vs := rfl

@[simp] theorem State.flag_frame (s : State) (k : AnomalyType) :
    (s.flag k).frame = s.frame := rfl

@[simp] theorem State.flag_arg0 (s : State) (k : AnomalyType) :
    (s.flag k).arg0 = s.arg0 := rfl

@[simp] theorem State.flag_status (s : State) (k : AnomalyType) :
    (s.flag k).status = s.status := rfl

@[simp] theorem State.flag_result (s : State) (k : AnomalyType) :
    (s.flag k).result = s.result := rfl

@[simp] theorem State.flag_snap (s : State) (k : AnomalyType) :
    (s.flag k).snap = s.snap := rfl

@[simp] theorem State.flag_anomaly (s : State) (k : AnomalyType) :
    (s.flag k).anomaly = ⟨true, k.code, k.severity, s.frame.id, s.frame.ts⟩ := rfl

@[simp] theorem State.flag_baseline (s : State) (k : AnomalyType) :
    (s.flag k).baseline = s.baseline := rfl

@[simp] theorem State.flag_hist (s : State) (k : AnomalyType) :
    (s.flag k).hist = s.hist := rfl

@[simp] theorem State.flag_track (s : State) (k : AnomalyType) :
    (s.flag k).track = s.track := rfl

@[simp] theorem State.flag_pending (s : State) (k : AnomalyType) :
    (s.flag k).pending = s.pending := rfl

@[simp] theorem State.flag_build (s : State) (k : AnomalyType) :
    (s.flag k).build = s.build := rfl

@[simp] theorem State.flag_inputs (s : State) (k : AnomalyType) :
    (s.flag k).inputs = s.inputs := rfl

@[simp] theorem State.flag_answers (s : State) (k : AnomalyType) :
    (s.flag k).answers = s.answers := rfl

/-! The unflagged outcome of a cycle (R199). -/

@[simp] theorem State.unflagged_vs (s : State) :
    (s.unflagged).vs = s.vs := rfl

@[simp] theorem State.unflagged_frame (s : State) :
    (s.unflagged).frame = s.frame := rfl

@[simp] theorem State.unflagged_arg0 (s : State) :
    (s.unflagged).arg0 = s.arg0 := rfl

@[simp] theorem State.unflagged_status (s : State) :
    (s.unflagged).status = s.status := rfl

@[simp] theorem State.unflagged_result (s : State) :
    (s.unflagged).result = s.result := rfl

@[simp] theorem State.unflagged_snap (s : State) :
    (s.unflagged).snap = s.snap := rfl

@[simp] theorem State.unflagged_anomaly (s : State) :
    (s.unflagged).anomaly = Anomaly.none := rfl

@[simp] theorem State.unflagged_baseline (s : State) :
    (s.unflagged).baseline = ⟨s.vs.rpm, true⟩ := rfl

@[simp] theorem State.unflagged_hist (s : State) :
    (s.unflagged).hist = s.hist.record s.cfg ⟨s.vs.rpm, s.vs.speed, s.frame.ts⟩ := rfl

@[simp] theorem State.unflagged_track (s : State) :
    (s.unflagged).track = s.track := rfl

@[simp] theorem State.unflagged_pending (s : State) :
    (s.unflagged).pending = s.pending := rfl

@[simp] theorem State.unflagged_build (s : State) :
    (s.unflagged).build = s.build := rfl

@[simp] theorem State.unflagged_inputs (s : State) :
    (s.unflagged).inputs = s.inputs := rfl

@[simp] theorem State.unflagged_answers (s : State) :
    (s.unflagged).answers = s.answers := rfl

/-! The effect of a reserved opcode (R233). -/

@[simp] theorem State.reserved_vs (s : State) :
    (s.reserved).vs = s.vs := rfl

@[simp] theorem State.reserved_frame (s : State) :
    (s.reserved).frame = s.frame := rfl

@[simp] theorem State.reserved_arg0 (s : State) :
    (s.reserved).arg0 = s.arg0 := rfl

@[simp] theorem State.reserved_status (s : State) :
    (s.reserved).status = ⟨true, s.status.overrun, false⟩ := rfl

@[simp] theorem State.reserved_result (s : State) :
    (s.reserved).result = 0 := rfl

@[simp] theorem State.reserved_snap (s : State) :
    (s.reserved).snap = s.snap := rfl

@[simp] theorem State.reserved_anomaly (s : State) :
    (s.reserved).anomaly = s.anomaly := rfl

@[simp] theorem State.reserved_baseline (s : State) :
    (s.reserved).baseline = s.baseline := rfl

@[simp] theorem State.reserved_hist (s : State) :
    (s.reserved).hist = s.hist := rfl

@[simp] theorem State.reserved_track (s : State) :
    (s.reserved).track = s.track := rfl

@[simp] theorem State.reserved_pending (s : State) :
    (s.reserved).pending = .none := rfl

@[simp] theorem State.reserved_build (s : State) :
    (s.reserved).build = s.build := rfl

@[simp] theorem State.reserved_inputs (s : State) :
    (s.reserved).inputs = s.inputs := rfl

@[simp] theorem State.reserved_answers (s : State) :
    (s.reserved).answers = s.answers := rfl

/-! A write while busy (R76). -/

@[simp] theorem State.writeBusy_vs (s : State) :
    (s.writeBusy).vs = s.vs := rfl

@[simp] theorem State.writeBusy_frame (s : State) :
    (s.writeBusy).frame = s.frame := rfl

@[simp] theorem State.writeBusy_arg0 (s : State) :
    (s.writeBusy).arg0 = s.arg0 := rfl

@[simp] theorem State.writeBusy_status (s : State) :
    (s.writeBusy).status = ⟨s.status.cmdIllegal, true, s.status.extInvalid⟩ := rfl

@[simp] theorem State.writeBusy_result (s : State) :
    (s.writeBusy).result = s.result := rfl

@[simp] theorem State.writeBusy_snap (s : State) :
    (s.writeBusy).snap = s.snap := rfl

@[simp] theorem State.writeBusy_anomaly (s : State) :
    (s.writeBusy).anomaly = s.anomaly := rfl

@[simp] theorem State.writeBusy_baseline (s : State) :
    (s.writeBusy).baseline = s.baseline := rfl

@[simp] theorem State.writeBusy_hist (s : State) :
    (s.writeBusy).hist = s.hist := rfl

@[simp] theorem State.writeBusy_track (s : State) :
    (s.writeBusy).track = s.track := rfl

@[simp] theorem State.writeBusy_pending (s : State) :
    (s.writeBusy).pending = s.pending := rfl

@[simp] theorem State.writeBusy_build (s : State) :
    (s.writeBusy).build = s.build := rfl

@[simp] theorem State.writeBusy_inputs (s : State) :
    (s.writeBusy).inputs = s.inputs := rfl

@[simp] theorem State.writeBusy_answers (s : State) :
    (s.writeBusy).answers = s.answers := rfl

/-! A pending word whose latency has passed. -/

@[simp] theorem State.withPendingWord_vs (s : State) (c : Word) :
    (s.withPendingWord c).vs = s.vs := rfl

@[simp] theorem State.withPendingWord_frame (s : State) (c : Word) :
    (s.withPendingWord c).frame = s.frame := rfl

@[simp] theorem State.withPendingWord_arg0 (s : State) (c : Word) :
    (s.withPendingWord c).arg0 = s.arg0 := rfl

@[simp] theorem State.withPendingWord_status (s : State) (c : Word) :
    (s.withPendingWord c).status = s.status := rfl

@[simp] theorem State.withPendingWord_result (s : State) (c : Word) :
    (s.withPendingWord c).result = s.result := rfl

@[simp] theorem State.withPendingWord_snap (s : State) (c : Word) :
    (s.withPendingWord c).snap = s.snap := rfl

@[simp] theorem State.withPendingWord_anomaly (s : State) (c : Word) :
    (s.withPendingWord c).anomaly = s.anomaly := rfl

@[simp] theorem State.withPendingWord_baseline (s : State) (c : Word) :
    (s.withPendingWord c).baseline = s.baseline := rfl

@[simp] theorem State.withPendingWord_hist (s : State) (c : Word) :
    (s.withPendingWord c).hist = s.hist := rfl

@[simp] theorem State.withPendingWord_track (s : State) (c : Word) :
    (s.withPendingWord c).track = s.track := rfl

@[simp] theorem State.withPendingWord_pending (s : State) (c : Word) :
    (s.withPendingWord c).pending = some ⟨c, 0⟩ := rfl

@[simp] theorem State.withPendingWord_build (s : State) (c : Word) :
    (s.withPendingWord c).build = s.build := rfl

@[simp] theorem State.withPendingWord_inputs (s : State) (c : Word) :
    (s.withPendingWord c).inputs = .latencyElapsed :: s.inputs := rfl

@[simp] theorem State.withPendingWord_answers (s : State) (c : Word) :
    (s.withPendingWord c).answers = s.answers := rfl

end Sys2Proof.Machine
end

