-- ==== Sys2Proof/Laws/Bus.lean ====
section
/-!
SUPPORT. The register window (10_state.md R25) and the block's answer to one host access (20_memory.md
R71-R77).
-/

namespace Sys2Proof.Machine

/-- The register at a register's own offset is that register: no two share one (R25). -/
theorem regAt_offset (r : Reg) : regAt r.offset = some r := by
  cases r with
  | histRS i => revert i; decide
  | histTS i => revert i; decide
  | ftId j => revert j; decide
  | ftLast j => revert j; decide
  | ftCount j => revert j; decide
  | _ => rfl

/-- The named words stand in the order of their offsets (R25). -/
theorem namedRegs_offsets : namedRegs.map Reg.offset = (List.range 20).map (fun k => 4 * k) := by decide

/-- And the register named at an offset stands there: no two share one (R25). -/
theorem regAt_some {off : Nat} {r : Reg} (h : regAt off = some r) : r.offset = off := by
  unfold regAt at h
  split at h
  · cases h
  split at h
  · have hk := congrArg (fun l => l[off / 4]?) namedRegs_offsets
    simp only [List.getElem?_map, h, Option.map_some] at hk
    have hl : off / 4 < 20 := by
      obtain ⟨hl, _⟩ := List.getElem?_eq_some_iff.mp h
      exact hl
    rw [List.getElem?_range hl] at hk
    simp only [Option.map_some, Option.some.injEq] at hk
    omega
  split at h
  · split at h <;> cases h <;> simp only [Reg.offset] <;> omega
  split at h
  · split at h <;> cases h <;> simp only [Reg.offset] <;> omega
  · cases h

/-- The word at a register's offset is what a read of the register returns (R77). -/
@[simp] theorem readWord_offset (s : State) (r : Reg) : s.readWord r.offset = s.readReg r := by
  simp only [State.readWord, regAt_offset]

/-- A register's offset is a supported access (R71). -/
@[simp] theorem supported_offset (r : Reg) : supported r.offset 4 = true := by
  cases r with
  | histRS i => revert i; decide
  | histTS i => revert i; decide
  | ftId j => revert j; decide
  | ftLast j => revert j; decide
  | ftCount j => revert j; decide
  | _ => rfl

/-- When an access is supported (R71, R73). -/
theorem supported_iff (off size : Nat) :
    supported off size = true ↔ size = 4 ∧ off % 4 = 0 ∧ off < 4096 := by
  simp only [supported, Bool.and_eq_true, decide_eq_true_eq, and_assoc]

/-- A read while idle: only the host's list of answers grows (R75). -/
theorem hostAccess_read_idle {s : State} (h : s.pending = none) (off size : Nat) :
    s.hostAccess (.read off size) = { s with answers := s.busRead off size :: s.answers } := by
  simp only [State.hostAccess, State.countLanding, h]

/-- A read while busy: the same, and one more access has landed (R75). -/
theorem hostAccess_read_busy {s : State} {p : Pending} (h : s.pending = some p) (off size : Nat) :
    s.hostAccess (.read off size) =
      { s with
        answers := s.busRead off size :: s.answers
        pending := some { p with landed := p.landed + 1 } } := by
  simp only [State.hostAccess, State.countLanding, h]

/-- A supported write while idle (R77). -/
theorem hostAccess_write_idle {s : State} (h : s.pending = none) {off size : Nat}
    (hs : supported off size = true) (v : Word) :
    s.hostAccess (.write off size v) = s.writeIdle off v := by
  simp only [State.hostAccess, State.countLanding, h, State.busWrite, hs, State.busy,
    Option.isSome_none, if_true, Bool.false_eq_true, if_false]

/-- A supported write while busy: ignored, OVERRUN set (R76). -/
theorem hostAccess_write_busy {s : State} {p : Pending} (h : s.pending = some p) {off size : Nat}
    (hs : supported off size = true) (v : Word) :
    s.hostAccess (.write off size v) =
      { s with
        status := { s.status with overrun := true }
        pending := some { p with landed := p.landed + 1 } } := by
  simp only [State.hostAccess, State.countLanding, h, State.busWrite, hs, State.busy,
    Option.isSome_some, if_true, State.writeBusy]

/-- An unsupported write changes nothing of the block, not even OVERRUN (R73). -/
theorem hostAccess_write_unsupported {s : State} {off size : Nat} (hs : supported off size = false)
    (v : Word) : s.hostAccess (.write off size v) = s.countLanding s.pending := by
  simp only [State.hostAccess, State.busWrite, hs, Bool.false_eq_true, if_false]

/-- Everything an idle write can do: one input register, a command made pending, OVERRUN cleared, or
nothing (R77). -/
theorem writeIdle_cases (s : State) (off : Nat) (v : Word) :
    (∃ f, s.writeIdle off v = { s with frame := f }) ∨
    (∃ a, s.writeIdle off v = { s with arg0 := a }) ∨
    s.writeIdle off v = { s with pending := some ⟨v, 0⟩ } ∨
    s.writeIdle off v = { s with status := { s.status with overrun := false } } ∨
    s.writeIdle off v = s := by
  unfold State.writeIdle
  split
  · exact .inl ⟨_, rfl⟩
  · exact .inl ⟨_, rfl⟩
  · exact .inl ⟨_, rfl⟩
  · exact .inl ⟨_, rfl⟩
  · exact .inl ⟨_, rfl⟩
  · exact .inr (.inl ⟨_, rfl⟩)
  · exact .inr (.inr (.inl rfl))
  · split
    · exact .inr (.inr (.inr (.inl rfl)))
    · exact .inr (.inr (.inr (.inr rfl)))
  · exact .inr (.inr (.inr (.inr rfl)))

/-- A host access changes nothing of the block but the staged frame, ARG0, OVERRUN and the busy state
(R75-R77), and nothing of the outside world but the answers. -/
theorem hostAccess_frame (s : State) (a : Access) :
    ∃ f g st p ans, s.hostAccess a =
      { s with
        frame := f
        arg0 := g
        status := { s.status with overrun := st }
        pending := p
        answers := ans } := by
  cases a with
  | read off size =>
    cases h : s.pending with
    | none => exact ⟨_, _, s.status.overrun, _, _, by rw [hostAccess_read_idle h]⟩
    | some p => exact ⟨_, _, s.status.overrun, _, _, by rw [hostAccess_read_busy h]⟩
  | write off size v =>
    cases hs : supported off size with
    | false =>
      rw [hostAccess_write_unsupported hs]
      cases h : s.pending with
      | none => exact ⟨_, _, s.status.overrun, _, _, rfl⟩
      | some p => exact ⟨_, _, s.status.overrun, _, _, rfl⟩
    | true =>
      cases h : s.pending with
      | some p => exact ⟨_, _, _, _, _, by rw [hostAccess_write_busy h hs]⟩
      | none =>
        rw [hostAccess_write_idle h hs]
        obtain ⟨f, e⟩ | ⟨g, e⟩ | e | e | e := writeIdle_cases s off v
        · exact ⟨f, _, s.status.overrun, _, _, e⟩
        · exact ⟨_, g, s.status.overrun, _, _, e⟩
        · exact ⟨_, _, s.status.overrun, _, _, e⟩
        · exact ⟨_, _, false, _, _, e⟩
        · exact ⟨_, _, s.status.overrun, _, _, e⟩

end Sys2Proof.Machine
end

