-- ==== Sys2Proof/Laws/Decode.lean ====
section
/-!
SUPPORT. What the fields of a command word are as numbers, and what decoding reads from a word
(30_encoding.md R91-R97).
-/

namespace Sys2Proof

/-- OP as a number. -/
theorem opField_toNat (c : Word) : (opField c).toNat = c.toNat % 16 := by
  simp [opField, BitVec.extractLsb'_toNat]

/-- FSTART as a number. -/
theorem fstartField_eq (c : Word) : fstartField c = c.toNat / 16 % 64 := by
  simp [fstartField, BitVec.extractLsb'_toNat, Nat.shiftRight_eq_div_pow]

/-- FLEN as a number. -/
theorem flenField_eq (c : Word) : flenField c = c.toNat / 1024 % 64 := by
  simp [flenField, BitVec.extractLsb'_toNat, Nat.shiftRight_eq_div_pow]

/-- `(c & 0xF) = OP selects the row` (R92), as numbers. -/
theorem and_low_nibble_toNat (c : Word) : (c &&& 0xF).toNat = c.toNat % 16 := by
  rw [BitVec.toNat_and]
  exact Nat.and_two_pow_sub_one_eq_mod c.toNat 4

/-- The low nibble of a word fixes its OP. -/
theorem opField_of_and {c : Word} {k : Nat} (hk : k < 16) (h : c &&& 0xF = BitVec.ofNat 32 k) :
    (opField c).toNat = k := by
  have h' := congrArg BitVec.toNat h
  rw [and_low_nibble_toNat, BitVec.toNat_ofNat] at h'
  rw [opField_toNat]
  omega

/-- FSTART is below 64 (R93). -/
theorem fstartField_lt (c : Word) : fstartField c < 64 := by
  rw [fstartField_eq]; omega

/-- FLEN is below 64 (R93). -/
theorem flenField_lt (c : Word) : flenField c < 64 := by
  rw [flenField_eq]; omega

/-- An extractor word as a number: nothing is lost in its 32 bits (R91). -/
theorem extract_word_toNat {start len op : Nat} (hs : start < 64) (hl : len < 64) (ho : op < 16) :
    (BitVec.ofNat 32 (len * 1024 + start * 16 + op)).toNat = len * 1024 + start * 16 + op := by
  rw [BitVec.toNat_ofNat]
  omega

/-- The four bytes of a word, put together again (R72). -/
theorem wordOfBytes_bytesOfWord (v : Word) :
    wordOfBytes (v.extractLsb' 0 8) (v.extractLsb' 8 8) (v.extractLsb' 16 8) (v.extractLsb' 24 8) = v := by
  apply BitVec.eq_of_getLsbD_eq
  intro i hi
  simp only [wordOfBytes, BitVec.getLsbD_append, BitVec.getLsbD_extractLsb']
  split
  · simp_all
  · split
    · have h : 8 + (i - 8) = i := by omega
      have h2 : i - 8 < 8 := by omega
      simp [h, h2]
    · split
      · have h : 16 + (i - 8 - 8) = i := by omega
        have h2 : i - 8 - 8 < 8 := by omega
        simp [h, h2]
      · have h : 24 + (i - 8 - 8 - 8) = i := by omega
        have h2 : i - 8 - 8 - 8 < 8 := by omega
        simp [h, h2]

/-- Decoding the bytes of a word is decoding the word, with nothing left over (R97). -/
theorem decodeBytes_bytesOfWord (v : Word) : decodeBytes (bytesOfWord v) = .ok (decode v, []) := by
  simp only [bytesOfWord, decodeBytes, wordOfBytes_bytesOfWord]

/-- The decoder's answer on a table word of at most 32 bits. -/
theorem decodeTableWord_eq {nbits : Nat} (h : nbits ≤ 32) (w : Nat) :
    decodeTableWord nbits w = some (decode (tableWord nbits w)) := by
  simp only [decodeTableWord, if_pos h, decodeBytes_bytesOfWord]

end Sys2Proof
end

