-- ==== Sys2Proof/Laws/Operands.lean ====
section
/-!
SUPPORT. What the operand forms are: the frame word W and its bytes (10_state.md R28, 40_decoder.md
R119), the extractor's two functions (R120, R121).
-/

namespace Sys2Proof.Machine

/-- Byte i of a frame is bits [8i+7:8i] of the frame word (R28, R72, R119). -/
theorem Frame.byte_eq_word (f : Frame) {i : Nat} (hi : i < 8) :
    f.byte i = f.word.extractLsb' (8 * i) 8 := by
  apply BitVec.eq_of_getLsbD_eq
  intro j hj
  simp only [Frame.byte, Frame.word]
  split
  · rename_i h4
    simp only [BitVec.getLsbD_extractLsb', BitVec.getLsbD_append, hj, decide_true, Bool.true_and]
    rw [if_pos (by omega)]
  · simp only [BitVec.getLsbD_extractLsb', BitVec.getLsbD_append, hj, decide_true, Bool.true_and]
    rw [if_neg (by omega)]
    congr 1
    omega

/-- A byte of a frame as a number. -/
theorem Frame.byte_toNat (f : Frame) {i : Nat} (hi : i < 8) :
    (f.byte i).toNat = f.word.toNat / 2 ^ (8 * i) % 256 := by
  rw [f.byte_eq_word hi, BitVec.extractLsb'_toNat, Nat.shiftRight_eq_div_pow]

/-- Bit k of the frame word is bit k mod 8 of byte floor_div(k, 8) (R119). -/
theorem Frame.word_bit (f : Frame) {k : Nat} (hk : k < 64) :
    f.word.getLsbD k = (f.byte (k / 8)).getLsbD (k % 8) := by
  rw [f.byte_eq_word (by omega), BitVec.getLsbD_extractLsb']
  have h : 8 * (k / 8) + k % 8 = k := by omega
  simp [h, Nat.mod_lt]

/-- The first n bytes of a number, each in its place. -/
theorem sum_of_bytes (w n : Nat) :
    ((List.range n).map (fun i => w / 2 ^ (8 * i) % 256 * 2 ^ (8 * i))).sum = w % 2 ^ (8 * n) := by
  induction n with
  | zero => simp [Nat.mod_one]
  | succ n ih =>
    rw [List.range_succ, List.map_append, List.sum_append, ih]
    have h := Nat.mod_pow_succ (b := 256) (x := w) (k := n)
    have h256 : ∀ m, (256 : Nat) ^ m = 2 ^ (8 * m) := fun m => by
      rw [show (256 : Nat) = 2 ^ 8 by rfl, ← Nat.pow_mul]
    rw [h256, h256] at h
    simp only [List.map_cons, List.map_nil, List.sum_cons, List.sum_nil, h]
    ring

/-- W is the sum of the bytes, each in its place (R119). -/
theorem Frame.word_eq_sum (f : Frame) :
    f.word.toNat = ((List.range 8).map (fun i => (f.byte i).toNat * 2 ^ (8 * i))).sum := by
  have h : (List.range 8).map (fun i => (f.byte i).toNat * 2 ^ (8 * i)) =
      (List.range 8).map (fun i => f.word.toNat / 2 ^ (8 * i) % 256 * 2 ^ (8 * i)) := by
    apply List.map_congr_left
    intro i hi
    rw [f.byte_toNat (List.mem_range.mp hi)]
  rw [h, sum_of_bytes, Nat.mod_eq_of_lt f.word.isLt]

/-- When a frame is malformed (R110). -/
theorem Frame.malformed_iff (f : Frame) : f.malformed = true ↔ 8 < f.dlc.toNat := by
  simp only [Frame.malformed, decide_eq_true_eq]
  exact Iff.rfl

/-- When a frame is not malformed (R110). -/
theorem Frame.malformed_eq_false (f : Frame) : f.malformed = false ↔ f.dlc.toNat ≤ 8 := by
  rw [← Bool.not_eq_true, Frame.malformed_iff, Nat.not_lt]

/-- When a field is valid (R120). -/
theorem Frame.fieldValid_iff (f : Frame) (start len : Nat) :
    f.fieldValid start len = true ↔
      f.dlc.toNat ≤ 8 ∧ 1 ≤ len ∧ len ≤ 32 ∧ start + len ≤ 8 * f.dlc.toNat := by
  simp only [Frame.fieldValid, Bool.and_eq_true, decide_eq_true_eq, and_assoc]
  exact Iff.rfl

/-- "Its value lies in 0 .. 2^len - 1" (R121). -/
theorem Frame.extractU_lt (f : Frame) (start len : Nat) : f.extractU start len < 2 ^ len :=
  Nat.mod_lt _ (by positivity)

/-- Bit j of an extracted field is frame bit start + j (R119, R121). -/
theorem Frame.extractU_bit (f : Frame) (start len j : Nat) :
    (f.extractU start len).testBit j = (decide (j < len) && f.word.getLsbD (start + j)) := by
  rw [Frame.extractU, Nat.testBit_mod_two_pow, Nat.testBit_div_two_pow, BitVec.getLsbD, Nat.add_comm]

/-- A field of at most 32 bits fits RESULT. -/
theorem Frame.extractU_toNat (f : Frame) (start : Nat) {len : Nat} (h : len ≤ 32) :
    (BitVec.ofNat 32 (f.extractU start len)).toNat = f.extractU start len := by
  rw [BitVec.toNat_ofNat]
  exact Nat.mod_eq_of_lt ((f.extractU_lt start len).trans_le (Nat.pow_le_pow_right (by decide) h))

/-- sext_32 as an integer: v - 2^len when the top bit is 1, v otherwise (R7). -/
theorem sext32_toInt {len v : Nat} (h1 : 1 ≤ len) (h2 : len ≤ 32) (hv : v < 2 ^ len) :
    (sext32 len v).toInt = if v / 2 ^ (len - 1) % 2 = 1 then (v : Int) - 2 ^ len else (v : Int) := by
  have hp : (2 : Nat) ^ len = 2 * 2 ^ (len - 1) := by
    rw [← Nat.pow_succ']; congr 1; omega
  have hle : (2 : Nat) ^ (len - 1) ≤ 2 ^ 31 := Nat.pow_le_pow_right (by decide) (by omega)
  have hpi : (2 : Int) ^ len = 2 * ((2 ^ (len - 1) : Nat) : Int) := by
    have h := congrArg (fun n : Nat => (n : Int)) hp
    simpa using h
  have hpos : 0 < 2 ^ (len - 1) := by positivity
  generalize hq : 2 ^ (len - 1) = q at *
  have hdiv : v / q < 2 := Nat.div_lt_of_lt_mul (by omega)
  have hdm := Nat.div_add_mod v q
  have hml := Nat.mod_lt v hpos
  unfold sext32
  rw [hq]
  generalize v / q = d at *
  split
  · rename_i h
    have hone : d = 1 := by omega
    rw [hone, Nat.mul_one] at hdm
    rw [BitVec.toInt_ofInt, hpi, Int.bmod_def]
    omega
  · rename_i h
    have hzero : d = 0 := by omega
    rw [hzero, Nat.mul_zero, Nat.zero_add] at hdm
    rw [BitVec.toInt_eq_toNat_bmod, BitVec.toNat_ofNat, Int.bmod_def]
    omega

/-- A 2-byte field is below 65536 (R112). -/
theorem raw16_lt (f : Frame) (o : Nat) : f.raw16 o < 65536 := by
  have h1 := (f.byte o).isLt
  have h2 := (f.byte (o + 1)).isLt
  unfold Frame.raw16
  omega

end Sys2Proof.Machine
end

