-- ==== Sys2Proof/Laws/Decoder.lean ====
section
/-!
SUPPORT. What Decode can do (40_decoder.md R110-R116).
-/

namespace Sys2Proof.Machine

/-- An ID has a routine exactly when it is one of the five known IDs (R110). -/
theorem routineOf_isSome_iff (c : Config) (id : CanId) :
    (routineOf c id).isSome = true ↔ id ∈ c.knownIds := by
  simp only [routineOf, Config.knownIds, List.mem_cons, List.not_mem_nil, or_false]
  split_ifs <;> simp_all

/-- The ID that selects a routine (R112-R116). -/
def Routine.id (c : Config) : Routine → CanId
  | .speed => c.idSpeed
  | .rpm => c.idRpm
  | .throttle => c.idThrottle
  | .engine => c.idEngine
  | .fault => c.idFault

/-- The five IDs are pairwise distinct in a legal configuration (R10), so each selects its own
routine. -/
theorem routineOf_id (b : Build) (r : Routine) : routineOf b.val (r.id b.val) = some r := by
  have h := b.property.1
  simp only [Config.knownIds, List.nodup_cons, List.mem_cons, List.not_mem_nil, or_false,
    not_or, List.nodup_nil, not_false_eq_true, and_true] at h
  cases r <;> simp only [routineOf, Routine.id] <;> split_ifs <;> simp_all

/-- Everything Decode can do: nothing for an unknown ID, nothing but the RECOGNISED bit for a frame that
is malformed or too short, and otherwise the routine's fields and last_update (R110, R111). -/
theorem decodeFrame_cases (c : Config) (f : Frame) (vs : VehicleState) :
    (routineOf c f.id = none ∧ decodeFrame c f vs = ⟨vs, false, false, f.malformed⟩) ∨
    (∃ r, routineOf c f.id = some r ∧ r.applies c f = false ∧
      decodeFrame c f vs = ⟨vs, false, true, f.malformed⟩) ∨
    (∃ r, routineOf c f.id = some r ∧ r.applies c f = true ∧ f.malformed = false ∧
      decodeFrame c f vs =
        ⟨{ r.write f (r.offset c) vs with lastUpdate := f.ts }, true, true, false⟩) := by
  unfold decodeFrame
  cases hr : routineOf c f.id with
  | none => exact .inl ⟨rfl, rfl⟩
  | some r =>
    cases ha : r.applies c f with
    | false => exact .inr (.inl ⟨r, rfl, ha, by simp [ha]⟩)
    | true =>
      have hm : f.malformed = false := by
        simp only [Routine.applies, Bool.and_eq_true, Bool.not_eq_true'] at ha
        exact ha.1
      exact .inr (.inr ⟨r, rfl, ha, hm, by simp [ha, hm]⟩)

/-- When a routine applies (R111). -/
theorem Routine.applies_iff (c : Config) (f : Frame) (r : Routine) :
    r.applies c f = true ↔ f.dlc.toNat ≤ 8 ∧ r.offset c + r.width ≤ f.dlc.toNat := by
  simp only [Routine.applies, Frame.malformed, Bool.and_eq_true, Bool.not_eq_true',
    decide_eq_false_iff_not, decide_eq_true_eq, Nat.not_lt]
  exact Iff.rfl

/-- A routine writes values in the decoder's ranges (R112-R114). -/
theorem Routine.write_inRange (f : Frame) (o : Nat) {vs : VehicleState} (h : vs.InRange)
    (r : Routine) : (r.write f o vs).InRange := by
  have h16 := raw16_lt f o
  have h8 := (f.byte o).isLt
  obtain ⟨h1, h2, h3⟩ := h
  cases r
  · exact ⟨by simp only [Routine.write, BitVec.toNat_ofNat]; omega, h2, h3⟩
  · exact ⟨h1, by simp only [Routine.write, BitVec.toNat_ofNat]; omega, h3⟩
  · have hd : (f.byte o).toNat * 100 / 255 ≤ 100 := by omega
    exact ⟨h1, h2, by
      simp only [Routine.write, BitVec.toNat_ofNat]
      exact (Nat.mod_le _ _).trans hd⟩
  · exact ⟨h1, h2, h3⟩
  · exact ⟨h1, h2, h3⟩

/-- Decode keeps VS in its ranges (R50 (e)). -/
theorem decodeFrame_inRange (c : Config) (f : Frame) {vs : VehicleState} (h : vs.InRange) :
    (decodeFrame c f vs).vs.InRange := by
  obtain ⟨_, e⟩ | ⟨r, _, _, e⟩ | ⟨r, _, _, _, e⟩ := decodeFrame_cases c f vs
  · rw [e]; exact h
  · rw [e]; exact h
  · rw [e]
    have hw := r.write_inRange f (r.offset c) h
    exact ⟨hw.speed_le, hw.rpm_le, hw.throttle_le⟩

end Sys2Proof.Machine
end

