-- ==== Sys2Proof/Laws/Statistics.lean ====
section
/-!
SUPPORT. What Record and Evaluate can do (42_statistics.md R170-R175).
-/

namespace Sys2Proof.Machine

/-- HIST_HEAD after an append, as a number (R170). -/
theorem History.record_head (b : Build) (h : History) (x : Sample) :
    (h.record b.val x).head.toNat = (h.head.toNat + 1) % b.val.histCap := by
  have hcap := b.property.2.1
  have := Nat.mod_lt (h.head.toNat + 1) (show b.val.histCap > 0 by omega)
  simp only [History.record, BitVec.toNat_ofNat]
  omega

/-- HIST_COUNT after an append, as a number (R170). -/
theorem History.record_count (b : Build) (h : History) (x : Sample) :
    (h.record b.val x).count.toNat = min (h.count.toNat + 1) b.val.histCap := by
  have hcap := b.property.2.1
  simp only [History.record, BitVec.toNat_ofNat]
  omega

/-- A slot after an append: the sample at HIST_HEAD, the others as before (R170). -/
theorem History.record_get (c : Config) (h : History) (x : Sample) (i : Fin 32) :
    (h.record c x).slots[i] = if h.head.toNat = i.val then x else h.slots[i] := by
  simp only [History.record, Fin.getElem_fin, Vector.getElem_set]

/-- The same of a slot by its number. -/
theorem History.record_slot (c : Config) (h : History) (x : Sample) {i : Nat} (hi : i < 32) :
    (h.record c x).slot i = if h.head.toNat = i then x else h.slot i := by
  have hg := History.record_get c h x ⟨i, hi⟩
  simp only [Fin.getElem_fin] at hg
  simp only [History.slot, Vector.getElem?_eq_getElem hi, Option.getD_some, hg]

/-- Record keeps the ring buffer's invariant (R50 (a), R42). -/
theorem History.record_inv (b : Build) {h : History} (hi : h.Inv b.val) (x : Sample) :
    (h.record b.val x).Inv b.val := by
  have hcap := b.property.2.1
  have hhd := History.record_head b h x
  have hct := History.record_count b h x
  have hlt := hi.head_lt
  refine ⟨by omega, ?_, fun hlt' => ?_, fun i hle => ?_⟩
  · rw [hhd]; exact Nat.mod_lt _ (by omega)
  · have heq := hi.head_eq_count (by omega)
    rw [hhd, hct, Nat.mod_eq_of_lt (by omega)]
    omega
  · rw [hct] at hle
    have hne : h.head.toNat ≠ i.val := by
      by_cases hf : h.count.toNat < b.val.histCap
      · have := hi.head_eq_count hf
        omega
      · omega
    rw [History.record_get, if_neg hne]
    exact hi.unwritten i (by have := hi.count_le; omega)

/-- Every slot of the empty buffer reads 0 (R46, R52). -/
theorem History.empty_slots : ∀ i : Fin 32, History.empty.slots[i] = Sample.zero := by decide

/-- The empty buffer meets its invariant, whatever the configuration (R50 (a)). -/
theorem History.empty_inv (b : Build) : History.empty.Inv b.val where
  count_le := Nat.zero_le _
  head_lt := b.property.2.1.1
  head_eq_count := fun _ => rfl
  unwritten := fun i _ => History.empty_slots i

/-- As many held samples as HIST_COUNT says (R42). -/
@[simp] theorem History.held_length (c : Config) (h : History) :
    (h.held c).length = h.count.toNat := by
  simp [History.held]

/-- A held slot's number is a slot of the configured buffer (R42). -/
theorem History.heldIndex_lt (b : Build) (h : History) (k : Nat) :
    h.heldIndex b.val k < b.val.histCap :=
  Nat.mod_lt _ (by have := b.property.2.1; omega)

/-- The held samples after an append: the new one first, then the earlier ones, the oldest dropped once
the buffer is full (R170, R171). -/
theorem History.record_held (b : Build) {h : History} (hi : h.Inv b.val) (x : Sample) :
    (h.record b.val x).held b.val = (x :: h.held b.val).take b.val.histCap := by
  have hcap := b.property.2.1
  have hhd := History.record_head b h x
  have hct := History.record_count b h x
  have hlt := hi.head_lt
  have hle := hi.count_le
  apply List.ext_getElem
  · simp only [History.held_length, List.length_take, List.length_cons, hct]
    omega
  · intro n h1 h2
    rw [History.held_length, hct] at h1
    have hn : n < b.val.histCap := by omega
    have hix : ∀ k, h.heldIndex b.val k < 32 := fun k =>
      (History.heldIndex_lt b h k).trans_le hcap.2
    -- the index of the n-th newest sample after the append
    have hidx : (h.record b.val x).heldIndex b.val (n + 1) =
        if n = 0 then h.head.toNat else h.heldIndex b.val n := by
      unfold History.heldIndex
      rw [hhd]
      by_cases hw : h.head.toNat + 1 = b.val.histCap
      · rw [hw, Nat.mod_self]
        split
        · rw [Nat.mod_eq_of_lt (by omega)]; omega
        · rw [Nat.mod_eq_of_lt (by omega), show h.head.toNat + b.val.histCap - n =
            (b.val.histCap - 1 - n) + b.val.histCap by omega, Nat.add_mod_right,
            Nat.mod_eq_of_lt (by omega)]
          omega
      · rw [Nat.mod_eq_of_lt (a := h.head.toNat + 1) (by omega)]
        split
        · rename_i h0
          rw [show h.head.toNat + 1 + b.val.histCap - (n + 1) = h.head.toNat + b.val.histCap by omega,
            Nat.add_mod_right, Nat.mod_eq_of_lt hlt]
        · congr 1; omega
    have hget : ((h.record b.val x).held b.val)[n]'(by rw [History.held_length, hct]; omega) =
        (h.record b.val x).slot ((h.record b.val x).heldIndex b.val (n + 1)) := by
      simp [History.held]
    rw [hget, hidx, List.getElem_take]
    cases n with
    | zero =>
      simp only [if_pos, List.getElem_cons_zero]
      rw [History.record_slot _ _ _ (by omega), if_pos rfl]
    | succ m =>
      simp only [Nat.add_eq_zero_iff, one_ne_zero, and_false, if_false, List.getElem_cons_succ]
      rw [History.record_slot _ _ _ (hix _), if_neg]
      · simp [History.held]
      · -- a held slot other than the newest is not the one the append overwrote
        unfold History.heldIndex
        intro heq
        by_cases hs : m + 1 ≤ h.head.toNat
        · rw [show h.head.toNat + b.val.histCap - (m + 1) =
            (h.head.toNat - (m + 1)) + b.val.histCap by omega, Nat.add_mod_right,
            Nat.mod_eq_of_lt (by omega)] at heq
          omega
        · rw [Nat.mod_eq_of_lt (by omega)] at heq
          omega

/-- Everything Evaluate can answer (R175). -/
theorem evaluate_cases (c : Config) (h : History) (candidate : BitVec 16) :
    (h.n < c.minSamples ∧ evaluate c h candidate = ⟨false, true, false⟩) ∨
    (c.minSamples ≤ h.n ∧ h.spread c = 0 ∧ evaluate c h candidate = ⟨false, false, true⟩) ∨
    (c.minSamples ≤ h.n ∧ h.spread c ≠ 0 ∧ evaluate c h candidate =
      ⟨decide ((c.sigma : Int) * c.sigma * h.spread c <
        h.deviation c candidate * h.deviation c candidate), false, false⟩) := by
  unfold evaluate
  by_cases h1 : h.n < c.minSamples
  · exact .inl ⟨h1, if_pos h1⟩
  · rw [if_neg h1]
    by_cases h2 : h.spread c = 0
    · exact .inr (.inl ⟨by omega, h2, if_pos h2⟩)
    · exact .inr (.inr ⟨by omega, h2, if_neg h2⟩)

/-- When Evaluate flags: enough samples, a non-zero variance, and E^2 > P_SIGMA^2 * D (R174, R175). -/
theorem evaluate_flagged_iff (c : Config) (h : History) (candidate : BitVec 16) :
    (evaluate c h candidate).flagged = true ↔
      c.minSamples ≤ h.n ∧ h.spread c ≠ 0 ∧
        (c.sigma : Int) * c.sigma * h.spread c <
          h.deviation c candidate * h.deviation c candidate := by
  obtain ⟨h1, e⟩ | ⟨h1, h2, e⟩ | ⟨h1, h2, e⟩ := evaluate_cases c h candidate
  · rw [e]; simp; omega
  · rw [e]; simp [h2]
  · rw [e]; simp [h1, h2]

end Sys2Proof.Machine
end

