-- ==== Sys2Proof/Laws/Tracker.lean ====
section
/-!
SUPPORT. What Observe can do (41_tracker.md R150-R155).
-/

namespace Sys2Proof.Machine

/-- A lookup that finds an entry finds a stored one with the ID (R151). -/
theorem FreqTable.lookup_some {t : FreqTable} {id : CanId} {j : Fin 16} (h : t.lookup id = some j) :
    j.val < t.count.toNat ∧ t.entries[j].id = id := by
  have := List.find?_some h
  simpa using this

/-- A lookup that finds none: no stored entry has the ID (R151). -/
theorem FreqTable.lookup_none {t : FreqTable} {id : CanId} (h : t.lookup id = none) (j : Fin 16)
    (hj : j.val < t.count.toNat) : t.entries[j].id ≠ id := by
  have := List.find?_eq_none.mp h j (List.mem_finRange j)
  simpa [hj] using this

/-- No stored entry has the ID: the lookup finds none. -/
theorem FreqTable.lookup_eq_none {t : FreqTable} {id : CanId}
    (h : ∀ j : Fin 16, j.val < t.count.toNat → t.entries[j].id ≠ id) : t.lookup id = none := by
  apply List.find?_eq_none.mpr
  intro j _
  simpa using h j

/-- "At most one entry matches, so lookup order does not matter" (R151). -/
theorem FreqTable.lookup_eq_some {c : Config} {t : FreqTable} (ht : t.Inv c) {id : CanId} {j : Fin 16}
    (hj : j.val < t.count.toNat) (hid : t.entries[j].id = id) : t.lookup id = some j := by
  cases h : t.lookup id with
  | none => exact absurd hid (FreqTable.lookup_none h j hj)
  | some k =>
    obtain ⟨hk, hkid⟩ := FreqTable.lookup_some h
    rw [ht.ids_distinct k j hk hj (hkid.trans hid.symm)]

/-- Everything Observe can do: a late ID changes nothing, an on-time one refreshes its entry, an unknown
one is inserted while there is room and changes nothing otherwise (R150-R154). -/
theorem observe_cases (c : Config) (t : FreqTable) (id : CanId) (now : Time) :
    (∃ j, t.lookup id = some j ∧ c.timeout < elapsed now t.entries[j].lastSeen ∧
      observe c t id now = ⟨.flagged, false, t⟩) ∨
    (∃ j, t.lookup id = some j ∧ elapsed now t.entries[j].lastSeen ≤ c.timeout ∧
      observe c t id now =
        ⟨.updated, false, { t with entries := t.entries.set j (t.entries[j].refresh now) }⟩) ∨
    (t.lookup id = none ∧ t.count.toNat < c.ftCap ∧
      observe c t id now = ⟨.registered, false, t.insert id now⟩) ∨
    (t.lookup id = none ∧ c.ftCap ≤ t.count.toNat ∧
      observe c t id now = ⟨.registered, true, t⟩) := by
  unfold observe
  cases h : t.lookup id with
  | some j =>
    by_cases hl : c.timeout < elapsed now t.entries[j].lastSeen
    · exact .inl ⟨j, rfl, hl, if_pos hl⟩
    · exact .inr (.inl ⟨j, rfl, Nat.not_lt.mp hl, if_neg hl⟩)
  | none =>
    by_cases hl : t.count.toNat < c.ftCap
    · exact .inr (.inr (.inl ⟨rfl, hl, if_pos hl⟩))
    · exact .inr (.inr (.inr ⟨rfl, Nat.not_lt.mp hl, if_neg hl⟩))

/-- An entry of the table after one entry was written. -/
theorem FreqTable.set_get (t : FreqTable) (j k : Fin 16) (e : TrackEntry) :
    (t.entries.set j e)[k] = if j = k then e else t.entries[k] := by
  simp only [Fin.getElem_fin, Vector.getElem_set, Fin.ext_iff]

/-- The count after a first sighting, while there is room (R154). -/
theorem FreqTable.insert_count {t : FreqTable} (h : t.count.toNat < 16) (id : CanId) (now : Time) :
    (t.insert id now).count.toNat = t.count.toNat + 1 := by
  change (t.count.toNat + 1) % 32 = t.count.toNat + 1
  omega

/-- An entry after a first sighting: the new one at index FT_COUNT, the others as before (R154). -/
theorem FreqTable.insert_get (t : FreqTable) (id : CanId) (now : Time) (k : Fin 16) :
    (t.insert id now).entries[k] =
      if t.count.toNat = k.val then ⟨id, now, 1⟩ else t.entries[k] := by
  simp only [FreqTable.insert, Fin.getElem_fin, Vector.getElem_setIfInBounds]

/-- The saturating count as a number (R153). -/
theorem TrackEntry.refresh_count (e : TrackEntry) (now : Time) :
    (e.refresh now).count.toNat = min (e.count.toNat + 1) 4294967295 := by
  simp only [TrackEntry.refresh, sat32, BitVec.toNat_ofNat]
  omega

/-- Every entry of the empty table reads 0 (R49, R52). -/
theorem FreqTable.empty_entries : ∀ j : Fin 16, FreqTable.empty.entries[j] = TrackEntry.zero := by
  decide

/-- The empty table meets its invariant, whatever the configuration (R50 (b)-(d)). -/
theorem FreqTable.empty_inv (c : Config) : FreqTable.empty.Inv c where
  count_le := Nat.zero_le _
  ids_distinct := fun _ _ h => absurd h (Nat.not_lt_zero _)
  count_pos := fun _ h => absurd h (Nat.not_lt_zero _)
  unwritten := fun j _ => FreqTable.empty_entries j

/-- Observe keeps the table's invariant (R50 (b)-(d)). -/
theorem observe_inv (b : Build) {t : FreqTable} (ht : t.Inv b.val) (id : CanId) (now : Time) :
    (observe b.val t id now).table.Inv b.val := by
  have hcap := b.property.2.2.2.1
  obtain ⟨j, _, _, e⟩ | ⟨j, hj, _, e⟩ | ⟨hn, hl, e⟩ | ⟨_, _, e⟩ := observe_cases b.val t id now
  · rw [e]; exact ht
  · obtain ⟨hjc, hid⟩ := FreqTable.lookup_some hj
    have hidr : ∀ k : Fin 16, ((t.entries.set j (t.entries[j].refresh now))[k]).id = t.entries[k].id := by
      intro k
      rw [FreqTable.set_get]
      split
      · rename_i h; subst h; rfl
      · rfl
    rw [e]
    refine ⟨ht.count_le, fun k l hk hl h => ?_, fun k hk => ?_, fun k hk => ?_⟩
    · exact ht.ids_distinct k l hk hl (by simpa only [hidr] using h)
    · show 1 ≤ ((t.entries.set j (t.entries[j].refresh now))[k]).count.toNat
      rw [FreqTable.set_get]
      split
      · rw [TrackEntry.refresh_count]
        exact le_min (Nat.le_add_left 1 _) (by decide)
      · exact ht.count_pos k hk
    · show (t.entries.set j (t.entries[j].refresh now))[k] = _
      rw [FreqTable.set_get, if_neg]
      · exact ht.unwritten k hk
      · rintro rfl; exact absurd hjc (by simpa using hk)
  · have hc := FreqTable.insert_count (t := t) (by omega) id now
    rw [e]
    refine ⟨by dsimp only; omega, fun k l hk hl' h => ?_, fun k hk => ?_, fun k hk => ?_⟩
    · dsimp only at hk hl' h
      rw [hc] at hk hl'
      rw [FreqTable.insert_get, FreqTable.insert_get] at h
      split_ifs at h with h1 h2 h2
      · exact Fin.ext (h1.symm.trans h2)
      · exact absurd h.symm (FreqTable.lookup_none hn l (by omega))
      · exact absurd h (FreqTable.lookup_none hn k (by omega))
      · exact ht.ids_distinct k l (by omega) (by omega) h
    · dsimp only at hk ⊢
      rw [hc] at hk
      rw [FreqTable.insert_get]
      split
      · simp
      · exact ht.count_pos k (by omega)
    · dsimp only at hk ⊢
      rw [hc] at hk
      rw [FreqTable.insert_get, if_neg (by omega)]
      exact ht.unwritten k (by omega)
  · rw [e]; exact ht

/-- A stored entry outlives every Observe, and only an on-time Observe of its own ID changes it
(R152-R154, R157). -/
theorem observe_entry (b : Build) {t : FreqTable} {j : Fin 16}
    (hj : j.val < t.count.toNat) (id : CanId) (now : Time)
    (h : id = t.entries[j].id → b.val.timeout < elapsed now t.entries[j].lastSeen) :
    (observe b.val t id now).table.entries[j] = t.entries[j] ∧
      j.val < (observe b.val t id now).table.count.toNat := by
  have hcap := b.property.2.2.2.1
  obtain ⟨k, _, _, e⟩ | ⟨k, hk, hl, e⟩ | ⟨_, hl, e⟩ | ⟨_, _, e⟩ := observe_cases b.val t id now <;> rw [e]
  · exact ⟨rfl, hj⟩
  · refine ⟨?_, hj⟩
    rw [FreqTable.set_get, if_neg]
    rintro rfl
    have := h (FreqTable.lookup_some hk).2.symm
    omega
  · rw [FreqTable.insert_get, FreqTable.insert_count (by omega), if_neg (by omega)]
    exact ⟨rfl, by omega⟩
  · exact ⟨rfl, hj⟩

end Sys2Proof.Machine
end

