-- ==== Sys2Proof/Laws/Engine.lean ====
section
/-!
SUPPORT. What one evaluation cycle can do (43_engine.md R190-R201).
-/

namespace Sys2Proof.Machine

/-- The cycle after check 3: engine inconsistency, statistical deviation, or no anomaly (R201). -/
theorem evalAfterObserve_cases (s : State) :
    (s.engineInconsistent = true ∧ s.evalAfterObserve = s.flag .engineInconsistency) ∨
    (s.engineInconsistent = false ∧ s.statDeviates = true ∧
      s.evalAfterObserve = s.flag .statisticalDeviation) ∨
    (s.engineInconsistent = false ∧ s.statDeviates = false ∧ s.evalAfterObserve = s.unflagged) := by
  unfold State.evalAfterObserve
  cases s.engineInconsistent <;> cases s.statDeviates <;> simp

/-- Everything a cycle can do, by the first positive check (R192, R201). -/
theorem engineEval_cases (s : State) :
    (s.rpmSpike = true ∧ s.engineEval = s.flag .rpmSpike) ∨
    (s.rpmSpike = false ∧ s.speedExceed = true ∧ s.engineEval = s.flag .speedExceed) ∨
    (s.rpmSpike = false ∧ s.speedExceed = false ∧ s.observeFrame.code = .flagged ∧
      s.engineEval = { s with track := s.observeFrame.table }.flag .canFrequency) ∨
    (s.rpmSpike = false ∧ s.speedExceed = false ∧ s.observeFrame.code ≠ .flagged ∧
      s.engineEval = { s with track := s.observeFrame.table }.evalAfterObserve) := by
  unfold State.engineEval
  cases s.rpmSpike <;> cases s.speedExceed <;> by_cases h : s.observeFrame.code = .flagged <;>
    simp [h]

/-- The outcome of a cycle as one of two: flagged with a produced type, or unflagged; the table is the old
one or the one Observe left (R198-R200). -/
theorem engineEval_outcome (s : State) :
    ∃ ft, (ft = s.track ∨ ft = s.observeFrame.table) ∧
      ((∃ k : AnomalyType, k ≠ .missingMessage ∧ s.engineEval = { s with track := ft }.flag k) ∨
        s.engineEval = { s with track := ft }.unflagged) := by
  obtain ⟨_, e⟩ | ⟨_, _, e⟩ | ⟨_, _, _, e⟩ | ⟨_, _, _, e⟩ := engineEval_cases s
  · exact ⟨s.track, .inl rfl, .inl ⟨_, by decide, e⟩⟩
  · exact ⟨s.track, .inl rfl, .inl ⟨_, by decide, e⟩⟩
  · exact ⟨_, .inr rfl, .inl ⟨_, by decide, e⟩⟩
  · refine ⟨_, .inr rfl, ?_⟩
    rw [e]
    obtain ⟨_, e'⟩ | ⟨_, _, e'⟩ | ⟨_, _, e'⟩ :=
      evalAfterObserve_cases { s with track := s.observeFrame.table }
    · exact .inl ⟨_, by decide, e'⟩
    · exact .inl ⟨_, by decide, e'⟩
    · exact .inr e'

/-- When check 4 is positive (R196). -/
theorem engineInconsistent_iff (s : State) :
    s.engineInconsistent = true ↔ s.vs.engineStatus = false ∧ 0 < s.vs.rpm.toNat := by
  simp [State.engineInconsistent]

/-- When check 2 is positive (R194). -/
theorem speedExceed_iff (s : State) :
    s.speedExceed = true ↔ s.cfg.speedMax < s.vs.speed.toNat := by
  simp [State.speedExceed]

/-- When check 1 is positive (R193). -/
theorem rpmSpike_iff (s : State) :
    s.rpmSpike = true ↔ s.baseline.valid = true ∧
      (s.cfg.spike : Int) < |(s.vs.rpm.toNat : Int) - (s.baseline.prevRpm.toNat : Int)| := by
  simp only [State.rpmSpike, Bool.and_eq_true, decide_eq_true_eq]
  refine and_congr_right fun _ => ?_
  rw [← Int.natCast_natAbs, Int.ofNat_lt]
  exact Iff.rfl

/-- RESULT of an ENGINE_EVAL that produced an anomaly depends on its variant alone (R203). -/
theorem cycleResult_flag (s : State) (k : AnomalyType) :
    cycleResult 0 (s.flag k).anomaly = cycleResult 0 ⟨true, k.code, k.severity, 0, 0⟩ := rfl

/-- RESULT of an ENGINE_EVAL for each variant (R38, R203). -/
theorem cycleResult_variants :
    cycleResult 0 ⟨true, AnomalyType.rpmSpike.code, AnomalyType.rpmSpike.severity, 0, 0⟩ = 0x211 ∧
    cycleResult 0 ⟨true, AnomalyType.speedExceed.code, AnomalyType.speedExceed.severity, 0, 0⟩ =
      0x221 ∧
    cycleResult 0 ⟨true, AnomalyType.canFrequency.code, AnomalyType.canFrequency.severity, 0, 0⟩ =
      0x131 ∧
    cycleResult 0 ⟨true, AnomalyType.engineInconsistency.code,
      AnomalyType.engineInconsistency.severity, 0, 0⟩ = 0x341 ∧
    cycleResult 0 ⟨true, AnomalyType.statisticalDeviation.code,
      AnomalyType.statisticalDeviation.severity, 0, 0⟩ = 0x151 ∧
    cycleResult 0 Anomaly.none = 0 := by decide

end Sys2Proof.Machine
end

