-- ==== Sys2Proof/Laws/Flags.lean ====
section
/-!
SUPPORT. What the flag words say: each stored bit at its place, and the numbers that RESULT takes.
-/

namespace Sys2Proof.Machine

/-- BUSY stands in bit 0 of STATUS (R32). -/
@[simp] theorem statusWord_busy (b : Bool) (st : Status) : (statusWord b st).getLsbD 0 = b := by
  obtain ⟨i, o, e⟩ := st
  revert b i o e
  decide

/-- A word that reads STATUS with BUSY = 1 is the idle one with bit 0 set (R32, R75). -/
theorem statusWord_true (st : Status) : statusWord true st = statusWord false st ||| 1 := by
  obtain ⟨i, o, e⟩ := st
  revert i o e
  decide

/-- RESULT of TRACK_OBSERVE is 2 exactly for Flagged (R155, R156). -/
theorem trackResult_eq_two (u : Bool) (k : ObserveCode) (h : u = true → k = .registered) :
    trackResult u k.bits = 2 ↔ k = .flagged := by
  revert h
  cases u <;> cases k <;> decide

/-- RESULT of HIST_EVALUATE has FLAGGED in bit 0 (R178). -/
@[simp] theorem statResult_flagged (z i f : Bool) : (statResult z i f).getLsbD 0 = f := by
  revert z i f
  decide

/-- RESULT of a cycle agrees with ANOM_STATUS in [10:0] (R203). -/
theorem cycleResult_low (d : BitVec 3) (a : Anomaly) :
    cycleResult d a &&& 0x7FF = anomStatusWord a &&& 0x7FF := by
  apply BitVec.eq_of_getLsbD_eq
  intro i hi
  rw [BitVec.getLsbD_and, BitVec.getLsbD_and]
  simp only [cycleResult, anomStatusWord, BitVec.getLsbD_append]
  interval_cases i <;> simp

/-- The decode bits stand at [18:16] of a cycle's RESULT and nowhere else (R203). -/
theorem cycleResult_or (d : BitVec 3) (a : Anomaly) :
    cycleResult d a = cycleResult 0 a ||| decodeResult d <<< 16 := by
  apply BitVec.eq_of_getLsbD_eq
  intro i hi
  rw [BitVec.getLsbD_or, BitVec.getLsbD_shiftLeft]
  simp only [cycleResult, decodeResult, BitVec.getLsbD_append]
  interval_cases i <;> simp

/-- The decode bits read back from DECODE's RESULT (R110). -/
@[simp] theorem decodeResult_bits (d : BitVec 3) : (decodeResult d).extractLsb' 0 3 = d := by
  revert d
  decide

end Sys2Proof.Machine
end

