-- ==== Sys2Proof/Laws/PerInstr.lean ====
section
/-!
SUPPORT. The family of statements about each instruction as syntax: the fields of its canonical word
(30_encoding.md R91, R101), one lemma per constructor.
-/

namespace Sys2Proof.Laws.EncodedFields

/-- The canonical word of a well-formed instruction has its opcode in bits [3:0] and no bit set from bit
16 on. -/
def Statement (i : Instr) : Prop :=
  i.wellFormed = true →
    (opField (encode i)).toNat = i.opcode.toNat ∧ (encode i).toNat < 2 ^ 16

theorem nop : Statement .nop := fun _ => by decide
theorem frameCycle : Statement .frameCycle := fun _ => by decide
theorem decode : Statement .decode := fun _ => by decide
theorem getState : Statement .getState := fun _ => by decide
theorem decoderReset : Statement .decoderReset := fun _ => by decide
theorem trackObserve : Statement .trackObserve := fun _ => by decide
theorem histRecord : Statement .histRecord := fun _ => by decide
theorem histEvaluate : Statement .histEvaluate := fun _ => by decide
theorem engineEval : Statement .engineEval := fun _ => by decide
theorem reservedB : Statement .reservedB := fun _ => by decide
theorem reservedC : Statement .reservedC := fun _ => by decide
theorem reservedD : Statement .reservedD := fun _ => by decide
theorem reservedE : Statement .reservedE := fun _ => by decide
theorem softReset : Statement .softReset := fun _ => by decide

theorem extractU (start len : Nat) : Statement (.extractU start len) := by
  intro h
  simp only [Instr.wellFormed, Bool.and_eq_true, decide_eq_true_eq] at h
  have hw := extract_word_toNat (op := 8) h.1 h.2 (by decide)
  simp only [encode, opField_toNat, hw]
  change _ = 8 ∧ _
  omega

theorem extractS (start len : Nat) : Statement (.extractS start len) := by
  intro h
  simp only [Instr.wellFormed, Bool.and_eq_true, decide_eq_true_eq] at h
  have hw := extract_word_toNat (op := 9) h.1 h.2 (by decide)
  simp only [encode, opField_toNat, hw]
  change _ = 9 ∧ _
  omega

end Sys2Proof.Laws.EncodedFields
end

