-- ==== Sys2Proof/Laws/Step.lean ====
section
/-!
SUPPORT. What a command and a step can do (44_control.md R231, 10_state.md R51).
-/

namespace Sys2Proof.Machine

/-- What every command leaves: idle, the host's side and the parameters as they were (R231). -/
structure Completed (s t : State) : Prop where
  pending : t.pending = none
  frame : t.frame = s.frame
  arg0 : t.arg0 = s.arg0
  overrun : t.status.overrun = s.status.overrun
  build : t.build = s.build
  inputs : t.inputs = s.inputs
  answers : t.answers = s.answers

/-- A cycle leaves the input registers, VS, the snapshot and the stored status alone (R190). -/
theorem engineEval_frame (s : State) :
    s.engineEval.frame = s.frame ∧ s.engineEval.arg0 = s.arg0 ∧ s.engineEval.status = s.status ∧
      s.engineEval.vs = s.vs ∧ s.engineEval.snap = s.snap ∧ s.engineEval.build = s.build ∧
      s.engineEval.inputs = s.inputs ∧ s.engineEval.answers = s.answers := by
  obtain ⟨ft, _, ⟨k, _, e⟩ | e⟩ := engineEval_outcome s <;> rw [e] <;> simp

/-- Every command completes, with a next state (R231, R250). -/
theorem exec_completes (i : Instr) (s : State) : ∃ t, exec i s = .next t ∧ Completed s t := by
  cases i with
  | nop => exact ⟨_, rfl, rfl, rfl, rfl, rfl, rfl, rfl, rfl⟩
  | frameCycle =>
    obtain ⟨h1, h2, h3, _, _, h4, h5, h6⟩ :=
      engineEval_frame { s with vs := (decodeFrame s.cfg s.frame s.vs).vs }
    exact ⟨_, rfl, rfl, h1, h2, (congrArg Status.overrun h3 :), h4, h5, h6⟩
  | decode => exact ⟨_, rfl, rfl, rfl, rfl, rfl, rfl, rfl, rfl⟩
  | getState => exact ⟨_, rfl, rfl, rfl, rfl, rfl, rfl, rfl, rfl⟩
  | decoderReset => exact ⟨_, rfl, rfl, rfl, rfl, rfl, rfl, rfl, rfl⟩
  | trackObserve => exact ⟨_, rfl, rfl, rfl, rfl, rfl, rfl, rfl, rfl⟩
  | histRecord => exact ⟨_, rfl, rfl, rfl, rfl, rfl, rfl, rfl, rfl⟩
  | histEvaluate => exact ⟨_, rfl, rfl, rfl, rfl, rfl, rfl, rfl, rfl⟩
  | extractU start len =>
    refine ⟨_, rfl, ?_⟩
    unfold State.extract
    split <;> exact ⟨rfl, rfl, rfl, rfl, rfl, rfl, rfl⟩
  | extractS start len =>
    refine ⟨_, rfl, ?_⟩
    unfold State.extract
    split <;> exact ⟨rfl, rfl, rfl, rfl, rfl, rfl, rfl⟩
  | engineEval =>
    obtain ⟨h1, h2, h3, _, _, h4, h5, h6⟩ := engineEval_frame s
    exact ⟨_, rfl, rfl, h1, h2, (congrArg Status.overrun h3 :), h4, h5, h6⟩
  | reservedB => exact ⟨_, rfl, rfl, rfl, rfl, rfl, rfl, rfl, rfl⟩
  | reservedC => exact ⟨_, rfl, rfl, rfl, rfl, rfl, rfl, rfl, rfl⟩
  | reservedD => exact ⟨_, rfl, rfl, rfl, rfl, rfl, rfl, rfl, rfl⟩
  | reservedE => exact ⟨_, rfl, rfl, rfl, rfl, rfl, rfl, rfl, rfl⟩
  | softReset => exact ⟨_, rfl, rfl, rfl, rfl, rfl, rfl, rfl, rfl⟩

/-- A cycle looks at VS, the baseline, FT, HIST, F.id, F.ts and the parameters alone, and overwrites the
record: from a state that differs in the other elements only, it does the same (R191, R201, R204). -/
theorem engineEval_indep (s : State) (d0 d1 arg r : Word) (st : Status) (sn : VehicleState) (an : Anomaly)
    (p : Option Pending) (ins : List Input) (ans : List Word) :
    ({ s with
        frame := { s.frame with data0 := d0, data1 := d1 }
        arg0 := arg, status := st, result := r, snap := sn, anomaly := an
        pending := p, inputs := ins, answers := ans } : State).engineEval =
      { s.engineEval with
        frame := { s.frame with data0 := d0, data1 := d1 }
        arg0 := arg, status := st, result := r, snap := sn
        pending := p, inputs := ins, answers := ans } := by
  obtain ⟨h, e⟩ | ⟨h, h', e⟩ | ⟨h, h', h'', e⟩ | ⟨h, h', h'', e⟩ := engineEval_cases s <;> rw [e]
  · exact if_pos h
  · exact (if_neg (Bool.eq_false_iff.mp h)).trans (if_pos h')
  · exact (if_neg (Bool.eq_false_iff.mp h)).trans
      ((if_neg (Bool.eq_false_iff.mp h')).trans (if_pos h''))
  · refine (if_neg (Bool.eq_false_iff.mp h)).trans
      ((if_neg (Bool.eq_false_iff.mp h')).trans ((if_neg h'').trans ?_))
    obtain ⟨a, e⟩ | ⟨a, a', e⟩ | ⟨a, a', e⟩ :=
      evalAfterObserve_cases { s with track := s.observeFrame.table } <;> rw [e]
    · exact if_pos a
    · exact (if_neg (Bool.eq_false_iff.mp a)).trans (if_pos a')
    · exact (if_neg (Bool.eq_false_iff.mp a)).trans (if_neg (Bool.eq_false_iff.mp a'))

/-- The five checks look neither at the busy state nor at the outside world. -/
theorem engineEval_host (s : State) (p : Option Pending) (ins : List Input) (ans : List Word) :
    ({ s with pending := p, inputs := ins, answers := ans } : State).engineEval =
      { s.engineEval with pending := p, inputs := ins, answers := ans } := by
  obtain ⟨h1, h2, h3, _, h5, _⟩ := engineEval_frame s
  have h4 : s.engineEval.result = s.result := by
    obtain ⟨ft, _, ⟨k, _, e⟩ | e⟩ := engineEval_outcome s <;> rw [e] <;> rfl
  refine (engineEval_indep s s.frame.data0 s.frame.data1 s.arg0 s.result s.status s.snap s.anomaly p ins
    ans).trans ?_
  rw [← h2, ← h3, ← h4, ← h5]
  exact congrArg (fun f => { s.engineEval with frame := f, pending := p, inputs := ins, answers := ans })
    h1.symm

/-- No command looks at the busy state or at the outside world: what it gives from another busy state and
another outside world is the same, but for that outside world (R53, R231). -/
theorem exec_host (i : Instr) {s t : State} (h : exec i s = .next t) (p : Option Pending)
    (ins : List Input) (ans : List Word) :
    exec i { s with pending := p, inputs := ins, answers := ans } =
      .next { t with inputs := ins, answers := ans } := by
  cases i with
  | frameCycle =>
    cases h
    refine congrArg Host.Outcome.next ?_
    have e := engineEval_host { s with vs := (decodeFrame s.cfg s.frame s.vs).vs } p ins ans
    simp only [State.cfg] at e ⊢
    rw [e]
    rfl
  | engineEval =>
    cases h
    refine congrArg Host.Outcome.next ?_
    rw [engineEval_host]
    rfl
  | extractU start len =>
    cases h
    refine congrArg Host.Outcome.next ?_
    simp only [State.extract]
    split <;> rfl
  | extractS start len =>
    cases h
    refine congrArg Host.Outcome.next ?_
    simp only [State.extract]
    split <;> rfl
  | _ => cases h; rfl

/-- What a command can do to FT: nothing, one Observe of the staged frame, or, for SOFT_RESET, the empty
table (R234). -/
theorem exec_track (i : Instr) {s t : State} (h : exec i s = .next t) :
    t.track = s.track ∨
    (i ∈ [.trackObserve, .engineEval, .frameCycle] ∧ t.track = s.observeFrame.table) ∨
    (i = .softReset ∧ t.track = FreqTable.empty) := by
  cases i with
  | softReset => cases h; exact .inr (.inr ⟨rfl, rfl⟩)
  | trackObserve => cases h; exact .inr (.inl ⟨by simp, rfl⟩)
  | engineEval =>
    cases h
    obtain ⟨ft, rfl | rfl, ⟨k, _, e⟩ | e⟩ := engineEval_outcome s <;> rw [e]
    · exact .inl rfl
    · exact .inl rfl
    · exact .inr (.inl ⟨by simp, rfl⟩)
    · exact .inr (.inl ⟨by simp, rfl⟩)
  | frameCycle =>
    cases h
    obtain ⟨ft, rfl | rfl, ⟨k, _, e⟩ | e⟩ :=
      engineEval_outcome { s with vs := (decodeFrame s.cfg s.frame s.vs).vs } <;> rw [e]
    · exact .inl rfl
    · exact .inl rfl
    · exact .inr (.inl ⟨by simp, rfl⟩)
    · exact .inr (.inl ⟨by simp, rfl⟩)
  | extractU start len => cases h; unfold State.extract; split <;> exact .inl rfl
  | extractS start len => cases h; unfold State.extract; split <;> exact .inl rfl
  | _ => cases h; exact .inl rfl

/-- Everything a step can be: nothing, a host access, the completion of the pending command, or hardware
reset (R4, R51, R270). -/
theorem step_cases (s : State) :
    (∃ rest, s.nextMove = .idle rest ∧ step s = .next { s with inputs := rest }) ∨
    (∃ a rest, s.nextMove = .access a rest ∧
      step s = .next ({ s with inputs := rest }.hostAccess a)) ∨
    (∃ c rest, s.nextMove = .complete c rest ∧ step s = exec (decode c) { s with inputs := rest }) ∨
    (∃ rest, s.nextMove = .reset rest ∧
      step s = .next { s with inputs := rest }.hardwareReset) := by
  unfold step
  cases h : s.nextMove with
  | idle rest => exact .inl ⟨rest, rfl, rfl⟩
  | access a rest => exact .inr (.inl ⟨a, rest, rfl, rfl⟩)
  | complete c rest => exact .inr (.inr (.inl ⟨c, rest, rfl, rfl⟩))
  | reset rest => exact .inr (.inr (.inr ⟨rest, rfl, rfl⟩))

/-- A command completes only if it is the pending one (R51). -/
theorem nextMove_complete {s : State} {c : Word} {rest : List Input}
    (h : s.nextMove = .complete c rest) : ∃ p, s.pending = some p ∧ p.word = c := by
  unfold State.nextMove at h
  cases hp : s.pending with
  | none => rw [hp] at h; split at h <;> simp at h
  | some p =>
    refine ⟨p, rfl, ?_⟩
    rw [hp] at h
    split at h
    · simp at h
    · simp at h; exact h.1
    · dsimp only at h; split at h <;> simp at h; exact h.1
    · simp at h; exact h.1

/-- A pending command whose latency has passed is what the next move completes. -/
theorem nextMove_withPendingWord (s : State) (c : Word) :
    (s.withPendingWord c).nextMove = .complete c s.inputs := rfl

/-- The very next step after withFetchWord runs the word's instruction on the state with it pending. -/
theorem step_withFetchWord (s : State) (nbits w : Nat) :
    step (s.withFetchWord nbits w) =
      exec (decode (tableWord nbits w)) { s with pending := some ⟨tableWord nbits w, 0⟩ } := rfl

/-- While idle, the host's next access reaches the block at once (R71). -/
theorem step_access_idle {s : State} {a : Access} {rest : List Input} (hp : s.pending = none)
    (hi : s.inputs = .access a :: rest) : step s = .next ({ s with inputs := rest }.hostAccess a) := by
  simp only [step, State.nextMove, hi, hp]

/-- A read while idle, as a step (R75). -/
theorem step_read_idle {s : State} {off size : Nat} {rest : List Input} (hp : s.pending = none)
    (hi : s.inputs = .access (.read off size) :: rest) :
    step s = .next { s with inputs := rest, answers := s.busRead off size :: s.answers } := by
  have h : ({ s with inputs := rest } : State).pending = none := hp
  rw [step_access_idle hp hi, hostAccess_read_idle h]
  rfl

/-- A supported write while idle, as a step (R77). -/
theorem step_write_idle {s : State} {off : Nat} {v : Word} {rest : List Input} (hp : s.pending = none)
    (hs : supported off 4 = true) (hi : s.inputs = .access (.write off 4 v) :: rest) :
    step s = .next ({ s with inputs := rest }.writeIdle off v) := by
  have h : ({ s with inputs := rest } : State).pending = none := hp
  rw [step_access_idle hp hi, hostAccess_write_idle h hs]

/-- While a command is pending and fewer than P_CMD_LATENCY accesses have landed, the host's next access
lands in the busy window (R51, R290). -/
theorem step_access_busy {s : State} {p : Pending} {a : Access} {rest : List Input}
    (hp : s.pending = some p) (hl : p.landed < s.cfg.cmdLatency) (hi : s.inputs = .access a :: rest) :
    step s = .next ({ s with inputs := rest }.hostAccess a) := by
  simp only [step, State.nextMove, hi, hp, hl, if_true]

/-- A read that lands in the busy window, as a step (R75). -/
theorem step_read_busy {s : State} {p : Pending} {off size : Nat} {rest : List Input}
    (hp : s.pending = some p) (hl : p.landed < s.cfg.cmdLatency)
    (hi : s.inputs = .access (.read off size) :: rest) :
    step s = .next { s with
      inputs := rest
      answers := s.busRead off size :: s.answers
      pending := some { p with landed := p.landed + 1 } } := by
  have h : ({ s with inputs := rest } : State).pending = some p := hp
  rw [step_access_busy hp hl hi, hostAccess_read_busy h]
  rfl

/-- An unsupported write, as a step: it changes nothing but the count of landed accesses (R73). -/
theorem step_write_unsupported_idle {s : State} {off size : Nat} {v : Word} {rest : List Input}
    (hp : s.pending = none) (hs : supported off size = false)
    (hi : s.inputs = .access (.write off size v) :: rest) : step s = .next { s with inputs := rest } := by
  have h : ({ s with inputs := rest } : State).pending = none := hp
  rw [step_access_idle hp hi, hostAccess_write_unsupported hs, h]
  rfl

/-- The same in the busy window. -/
theorem step_write_unsupported_busy {s : State} {p : Pending} {off size : Nat} {v : Word}
    {rest : List Input} (hp : s.pending = some p) (hl : p.landed < s.cfg.cmdLatency)
    (hs : supported off size = false) (hi : s.inputs = .access (.write off size v) :: rest) :
    step s = .next { s with inputs := rest, pending := some { p with landed := p.landed + 1 } } := by
  have h : ({ s with inputs := rest } : State).pending = some p := hp
  rw [step_access_busy hp hl hi, hostAccess_write_unsupported hs, h]
  rfl

/-- A supported write that lands in the busy window, as a step (R76). -/
theorem step_write_busy {s : State} {p : Pending} {off : Nat} {v : Word} {rest : List Input}
    (hp : s.pending = some p) (hl : p.landed < s.cfg.cmdLatency) (hs : supported off 4 = true)
    (hi : s.inputs = .access (.write off 4 v) :: rest) :
    step s = .next { s with
      inputs := rest
      status := { s.status with overrun := true }
      pending := some { p with landed := p.landed + 1 } } := by
  have h : ({ s with inputs := rest } : State).pending = some p := hp
  rw [step_access_busy hp hl hi, hostAccess_write_busy h hs]

/-- The step at which the latency of a pending command has passed (R231). -/
theorem step_latencyElapsed {s : State} {p : Pending} {rest : List Input} (hp : s.pending = some p)
    (hi : s.inputs = .latencyElapsed :: rest) :
    step s = exec (decode p.word) { s with inputs := rest } := by
  simp only [step, State.nextMove, hi, hp]

/-- One step at the head of a run. -/
theorem run_succ {s t : State} (h : step s = .next t) (k : Nat) :
    Sys2Proof.core.run (k + 1) s = Sys2Proof.core.run k t := by
  have h' : Sys2Proof.core.step s = .next t := h
  simp only [Host.Core.run, h']

end Sys2Proof.Machine
end

