-- ==== Sys2Proof/Tests/Slice0.lean ====
section
/-!
SUPPORT. The model's own tests. Expected values come from spec/95_test_vectors.md (the vector's id stands at
each test), from the encodings of spec/30_encoding.md, or from the rule named. The second half holds a
named witness for the hypotheses of every obligation that has any, one for each of its clauses.
-/

namespace Sys2Proof.Tests

open Sys2Proof Sys2Proof.Machine

/-! ## Helpers -/

/-- The state that a command gives. -/
def after (i : Instr) (s : State) : State :=
  match exec i s with
  | .next t => t
  | .fault _ => s
  | .refused _ => s

/-- The state that a step gives. -/
def stepped (s : State) : State :=
  match step s with
  | .next t => t
  | .fault _ => s
  | .refused _ => s

/-- The reset state with a staged frame. -/
def staged (id : CanId) (dlc : BitVec 4) (d0 d1 : Word) (ts : Time) : State :=
  { State.reset with frame := ⟨id, dlc, d0, d1, ts⟩ }

/-- The frame of 95_test_vectors.md 2.2. -/
def extractorFrame (dlc : BitVec 4) : State := staged 0x100 dlc 0x78563412 0xF0DEBC9A 0

/-- A table with one entry and a staged frame of that ID at a time. -/
def tracked (id : CanId) (seen : Time) (count : Word) (now : Time) : State :=
  { staged id 0 0 0 now with
    track := ⟨(Vector.replicate 16 TrackEntry.zero).set 0 ⟨id, seen, count⟩, 1⟩ }

/-- A full table that does not hold the staged ID. -/
def fullTable : State :=
  { staged 0x400 0 0 0 16 with track := ⟨Vector.replicate 16 ⟨0x300, 0, 1⟩, 16⟩ }

/-- The buffer after a list of rpm samples. -/
def recorded (rpms : List (BitVec 16)) : History :=
  rpms.foldl (fun h r => h.record Config.default ⟨r, 0, 0⟩) History.empty

/-- Buffer B1 of 95_test_vectors.md 2.4. -/
def bufferB1 : History := recorded [2900, 3100, 2900, 3100, 2900, 3100, 2900, 3100, 2900, 3100]

/-- HIST_EVALUATE's operands. -/
def evaluating (h : History) (candidate : Word) : State :=
  { State.reset with hist := h, arg0 := candidate }

/-- An engine that is on, at a speed and an rpm, with a baseline, at the frame (0x101, ts 10). -/
def driving (speed rpm prev : BitVec 16) : State :=
  { staged 0x101 0 0 0 10 with
    vs := ⟨speed, rpm, 0, 0, true, false, 0⟩, baseline := ⟨prev, true⟩ }

/-- A state with a command pending, so many accesses landed, and inputs to come. -/
def busyWith (c : Word) (landed : Nat) (ins : List Input) : State :=
  { State.reset with pending := some ⟨c, landed⟩, inputs := ins }

/-- A build with a buffer of ten samples (R11). -/
def smallBuild : Build := ⟨{ Config.default with histCap := 10 }, by decide⟩

/-- Every command completes, so `after` is what exec answers. -/
theorem exec_after (i : Instr) (s : State) : exec i s = .next (after i s) := by
  obtain ⟨t, h, _⟩ := exec_completes i s
  rw [after, h]

/-- Every step answers a state, so `stepped` is what it answers. -/
theorem step_stepped (s : State) : step s = .next (stepped s) := by
  obtain ⟨_, _, h⟩ | ⟨_, _, _, h⟩ | ⟨c, r, _, h⟩ | ⟨_, _, h⟩ := step_cases s
  · rw [stepped, h]
  · rw [stepped, h]
  · obtain ⟨t, e, _⟩ := exec_completes (decode c) { s with inputs := r }
    rw [stepped, h, e]
  · rw [stepped, h]

/-! ## Well-formedness: each check refuses an ill-formed term (R93, R101, R103) -/

theorem test_wellFormed_extractU_start : (Instr.extractU 64 1).wellFormed = false := by decide
theorem test_wellFormed_extractU_len : (Instr.extractU 0 64).wellFormed = false := by decide
theorem test_wellFormed_extractS_start : (Instr.extractS 64 1).wellFormed = false := by decide
theorem test_wellFormed_extractS_len : (Instr.extractS 0 64).wellFormed = false := by decide
theorem test_wellFormed_frame_bytes :
    (Line.frame 0x100 8 (List.replicate 9 0) 0).wellFormed = false := by decide
theorem test_wellFormed_cmd_line : (Line.cmd (.extractU 0 64)).wellFormed = false := by decide

/-! ## Decoding: words written out bit by bit as `r...r LLLLLL SSSSSS oooo` (R91, R92) -/

theorem test_decode_nop : decode 0b0000000000000000_000000_000000_0000 = .nop := by decide
theorem test_decode_frameCycle : decode 0b0000000000000000_000000_000000_0001 = .frameCycle := by decide
theorem test_decode_decode : decode 0b0000000000000000_000000_000000_0010 = .decode := by decide
theorem test_decode_getState : decode 0b0000000000000000_000000_000000_0011 = .getState := by decide
theorem test_decode_decoderReset : decode 0b0000000000000000_000000_000000_0100 = .decoderReset := by
  decide
theorem test_decode_trackObserve : decode 0b0000000000000000_000000_000000_0101 = .trackObserve := by
  decide
theorem test_decode_histRecord : decode 0b0000000000000000_000000_000000_0110 = .histRecord := by decide
theorem test_decode_histEvaluate : decode 0b0000000000000000_000000_000000_0111 = .histEvaluate := by
  decide
/-- start 5 = 000101, len 11 = 001011. -/
theorem test_decode_extractU : decode 0b0000000000000000_001011_000101_1000 = .extractU 5 11 := by decide
/-- start 32 = 100000, len 1 = 000001; the reserved bits are all 1. -/
theorem test_decode_extractS : decode 0b1111111111111111_000001_100000_1001 = .extractS 32 1 := by decide
theorem test_decode_engineEval : decode 0b0000000000000000_000000_000000_1010 = .engineEval := by decide
theorem test_decode_reservedB : decode 0b0000000000000000_000000_000000_1011 = .reservedB := by decide
theorem test_decode_reservedC : decode 0b0000000000000000_000000_000000_1100 = .reservedC := by decide
theorem test_decode_reservedD : decode 0b0000000000000000_000000_000000_1101 = .reservedD := by decide
theorem test_decode_reservedE : decode 0b0000000000000000_000000_000000_1110 = .reservedE := by decide
theorem test_decode_softReset : decode 0b1111111111111111_111111_111111_1111 = .softReset := by decide

/-- The words of the vectors EX3, EX9 and EX19. -/
theorem test_encode_extractors :
    encode (.extractU 12 12) = 0x000030C8 ∧ encode (.extractS 56 8) = 0x00002389 ∧
    encode (.extractU 0 33) = 0x00008408 := by decide

theorem test_decodeTableWord :
    decodeTableWord 32 0x30C8 = some (.extractU 12 12) ∧ decodeTableWord 33 0 = none := by decide

theorem test_decodeBytes_tooShort : decodeBytes [1, 2, 3] = .error .tooShort := by decide

theorem test_withFetchWord_runs :
    stepped (State.reset.withFetchWord 32 0xB) = after .reservedB State.reset := by decide

/-! ## One or two cases of each command -/

/-- R230. -/
theorem test_nop :
    (after .nop { State.reset with status := ⟨true, true, true⟩, result := 7 }).status =
      ⟨false, true, false⟩ := by decide

/-- W2, W3. -/
theorem test_frameCycle :
    (after .frameCycle (staged 0x101 2 0x03E8 0 0)).result = 0x00030341 ∧
    (after .frameCycle (staged 0x101 2 0x03E8 0 0)).readWord 0x030 = 0x01010341 := by decide

/-- W1. -/
theorem test_decode_speed :
    (after .decode (staged 0x100 2 0x0064 0 7)).result = 3 ∧
    (after .decode (staged 0x100 2 0x0064 0 7)).vs = ⟨10, 0, 0, 0, false, false, 7⟩ := by decide

/-- DE21. -/
theorem test_decode_malformed :
    (after .decode (staged 0x100 9 0x0064 0 42)).result = 6 ∧
    (after .decode (staged 0x100 9 0x0064 0 42)).vs = VehicleState.zero := by decide

/-- DE13, DE25. -/
theorem test_getState :
    (after .getState (after .decode (staged 0x103 1 0x0F 0 42))).readWord 0x028 = 0x00010700 ∧
    (after .getState (after .decode (staged 0x103 1 0x0F 0 42))).readWord 0x02C = 42 := by decide

/-- DE27. -/
theorem test_decoderReset :
    (after .decoderReset (after .decode (staged 0x103 1 0x0F 0 42))).vs = VehicleState.zero := by decide

/-- TR2: elapsed 5000 is on time. -/
theorem test_trackObserve_onTime :
    (after .trackObserve (tracked 0x100 0 1 5000)).result = 0 ∧
    (after .trackObserve (tracked 0x100 0 1 5000)).track.entries[0] = ⟨0x100, 5000, 2⟩ := by decide

/-- TR6: a full table. -/
theorem test_trackObserve_full : (after .trackObserve fullTable).result = 5 := by decide

/-- The example of R172. -/
theorem test_histRecord :
    (after .histRecord { State.reset with arg0 := 3000 }).readWord 0x040 = 3000 ∧
    (after .histRecord { State.reset with arg0 := 3000 }).readWord 0x03C = 0x00000101 := by decide

/-- ST2, ST3: the boundary of the test. -/
theorem test_histEvaluate_boundary :
    (after .histEvaluate (evaluating bufferB1 3300)).result = 0 ∧
    (after .histEvaluate (evaluating bufferB1 3301)).result = 1 := by decide

/-- EX3. -/
theorem test_extractU : (after (.extractU 12 12) (extractorFrame 8)).result = 0x563 := by decide

/-- EX17. -/
theorem test_extractU_invalid :
    (after (.extractU 61 4) (extractorFrame 8)).status = ⟨false, false, true⟩ := by decide

/-- EX9, EX8. -/
theorem test_extractS :
    (after (.extractS 56 8) (extractorFrame 8)).result = 0xFFFFFFF0 ∧
    (after (.extractS 63 1) (extractorFrame 8)).result = 0xFFFFFFFF := by decide

/-- The example of R204. -/
theorem test_engineEval :
    (after .engineEval (staged 0x7FF 0 0 0 0)).result = 0 ∧
    (after .engineEval (staged 0x7FF 0 0 0 0)).readWord 0x038 = 0x00010000 := by decide

/-- W4: 201 flags, 200 does not. -/
theorem test_engineEval_speed :
    (after .engineEval (driving 201 250 250)).result = 0x221 ∧
    (after .engineEval (driving 200 250 250)).result = 0 := by decide

/-- CT1. -/
theorem test_reservedB : (after .reservedB State.reset).readWord 0x01C = 2 := by decide
theorem test_reservedC : (after .reservedC State.reset).readWord 0x01C = 2 := by decide
theorem test_reservedD : (after .reservedD State.reset).readWord 0x01C = 2 := by decide
theorem test_reservedE : (after .reservedE State.reset).readWord 0x01C = 2 := by decide

/-- R232. -/
theorem test_softReset :
    (after .softReset { driving 201 250 250 with status := ⟨true, true, true⟩, arg0 := 5 }) =
      { staged 0x101 0 0 0 10 with status := ⟨false, true, false⟩, arg0 := 5 } := by decide

/-! ## The window -/

/-- ST15's readback: Q takes more than 32 bits. -/
theorem test_sumsq_registers :
    (evaluating (recorded [65535, 0, 65535, 0]) 0).readWord 0x044 = 0xFFFC0002 ∧
    (evaluating (recorded [65535, 0, 65535, 0]) 0).readWord 0x048 = 1 := by decide

/-- CT11 while busy (log 26) and CT12: OVERRUN at [2], BUSY at [0]. -/
theorem test_status_register :
    (stepped (busyWith 0 0 [wrAt 0x000 1])).readWord 0x01C = 0x5 ∧
    (stepped { State.reset with status := ⟨false, true, false⟩, inputs := [wrAt 0x01C 4] }).readWord
      0x01C = 0 := by decide

/-- W8's readback. -/
theorem test_ft_window :
    (tracked 0x100 4000 2 0).readWord 0x200 = 0x80000100 ∧ (tracked 0x100 4000 2 0).readWord 0x210 = 0 := by
  decide

/-- R103: the bytes of a FRAME line in their places. -/
theorem test_frame_line :
    expand 0 (.frame 0x100 2 [0x12, 0x34, 0x56] 7) =
      [wrAt 0x000 0x100, wrAt 0x004 2, wrAt 0x008 0x00563412, wrAt 0x00C 0, wrAt 0x010 7] := by decide

/-- R70, R71: a bus address within the window. -/
theorem test_offsetOf :
    ({ Config.default with baseAddr := 0x1000 } : Config).offsetOf 0x101C = some 0x01C ∧
    ({ Config.default with baseAddr := 0x1000 } : Config).offsetOf 0x0FFF = none := by decide

/-! ## Witnesses: the hypotheses of each obligation can be met -/

theorem witness_HardwareResetZeroesEveryElement :
    (busyWith 1 3 [.hardwareReset]).inputs = .hardwareReset :: [] := rfl

theorem witness_StepRunsThePendingCommand :
    (busyWith 2 3 [.latencyElapsed]).pending = some ⟨2, 3⟩ ∧
    (busyWith 2 3 [.latencyElapsed]).inputs = .latencyElapsed :: [] ∧
    (busyWith 2 3 []).pending = some ⟨2, 3⟩ ∧ (busyWith 2 3 []).inputs = [] ∧
    (busyWith 2 255 [rdAt 0x01C]).pending = some ⟨2, 255⟩ ∧
    (busyWith 2 255 [rdAt 0x01C]).inputs = .access (.read 0x01C 4) :: [] ∧
    (busyWith 2 255 [rdAt 0x01C]).cfg.cmdLatency ≤ 255 := by decide

/-- State.reset with inputs. -/
def idleWith (ins : List Input) : State := { State.reset with inputs := ins }

theorem witness_CmdWriteStartsTheCommand :
    (idleWith [wrAt 0x018 5]).pending = none ∧
    (idleWith [wrAt 0x018 5]).inputs = .access (.write 0x018 4 5) :: [] := by decide

theorem witness_IdleBlockKeepsItsState :
    (driving 201 250 250).pending = none ∧ (driving 201 250 250).inputs = [] := by decide

theorem witness_DecodeOfEncodeIsTheInstruction :
    Instr.engineEval.wellFormed = true ∧ (Instr.extractU 63 63).wellFormed = true ∧
    (Instr.extractS 0 0).wellFormed = true := by decide

/-- Each of the sixteen clauses, for a word with every other bit set. -/
theorem witness_OpcodeMapSelectsTheRow :
    (0xFFFFFFF0 : Word) &&& 0xF = 0x0 ∧ (0xFFFFFFF1 : Word) &&& 0xF = 0x1 ∧
    (0xFFFFFFF2 : Word) &&& 0xF = 0x2 ∧ (0xFFFFFFF3 : Word) &&& 0xF = 0x3 ∧
    (0xFFFFFFF4 : Word) &&& 0xF = 0x4 ∧ (0xFFFFFFF5 : Word) &&& 0xF = 0x5 ∧
    (0xFFFFFFF6 : Word) &&& 0xF = 0x6 ∧ (0xFFFFFFF7 : Word) &&& 0xF = 0x7 ∧
    (0xFFFFFFF8 : Word) &&& 0xF = 0x8 ∧ (0xFFFFFFF9 : Word) &&& 0xF = 0x9 ∧
    (0xFFFFFFFA : Word) &&& 0xF = 0xA ∧ (0xFFFFFFFB : Word) &&& 0xF = 0xB ∧
    (0xFFFFFFFC : Word) &&& 0xF = 0xC ∧ (0xFFFFFFFD : Word) &&& 0xF = 0xD ∧
    (0xFFFFFFFE : Word) &&& 0xF = 0xE ∧ (0xFFFFFFFF : Word) &&& 0xF = 0xF := by decide

theorem witness_NopClearsTheCommandBits : (0xFFFFFFF0 : Word) &&& 0xF = 0x0 := by decide

theorem witness_ReservedOpcodesReportIllegal :
    (0x0000000B : Word) &&& 0xF = 0xB ∧ (0xFFFFFFFC : Word) &&& 0xF = 0xC ∧
    (0x0000FFFD : Word) &&& 0xF = 0xD ∧ (0xFFFF000E : Word) &&& 0xF = 0xE := by decide

theorem witness_SoftResetKeepsInputsAndOverrun : (0x0000000F : Word) &&& 0xF = 0xF := by decide

theorem witness_GetStateCopiesTheVehicleState :
    (0x00000003 : Word) &&& 0xF = 0x3 ∧
    exec .decode (staged 0x100 2 0x0064 0 7) = .next (after .decode (staged 0x100 2 0x0064 0 7)) ∧
    Instr.decode ≠ .getState ∧ Instr.decode ≠ .softReset :=
  ⟨by decide, exec_after _ _, by decide, by decide⟩

theorem witness_DecoderResetZeroesOnlyTheVehicleState : (0x00000004 : Word) &&& 0xF = 0x4 := by decide

/-- Both clauses at the boundary: dlc 2 is enough, dlc 1 is not. -/
theorem witness_SpeedRoutineWritesTenths :
    (0x2 : Word) &&& 0xF = 0x2 ∧
    (staged 0x100 2 0x07DA 0 7).frame.id = (staged 0x100 2 0x07DA 0 7).cfg.idSpeed ∧
    (staged 0x100 2 0x07DA 0 7).cfg.offSpeed + 2 = (staged 0x100 2 0x07DA 0 7).frame.dlc.toNat ∧
    (staged 0x100 1 0x07DA 0 7).frame.dlc.toNat + 1 = (staged 0x100 1 0x07DA 0 7).cfg.offSpeed + 2 ∧
    (staged 0x100 8 0x07DA 0 7).frame.dlc.toNat ≤ 8 := by decide

theorem witness_RpmRoutineWritesQuarters :
    (0x2 : Word) &&& 0xF = 0x2 ∧
    (staged 0x101 2 0x03E8 0 7).frame.id = (staged 0x101 2 0x03E8 0 7).cfg.idRpm ∧
    (staged 0x101 2 0x03E8 0 7).cfg.offRpm + 2 = (staged 0x101 2 0x03E8 0 7).frame.dlc.toNat ∧
    (staged 0x101 1 0x03E8 0 7).frame.dlc.toNat + 1 = (staged 0x101 1 0x03E8 0 7).cfg.offRpm + 2 ∧
    (staged 0x101 8 0x03E8 0 7).frame.dlc.toNat ≤ 8 := by decide

theorem witness_ThrottleRoutineScalesToPercent :
    (0x2 : Word) &&& 0xF = 0x2 ∧
    (staged 0x102 1 0xFF 0 7).frame.id = (staged 0x102 1 0xFF 0 7).cfg.idThrottle ∧
    (staged 0x102 1 0xFF 0 7).cfg.offThrottle + 1 = (staged 0x102 1 0xFF 0 7).frame.dlc.toNat ∧
    (staged 0x102 0 0xFF 0 7).frame.dlc.toNat + 1 = (staged 0x102 0 0xFF 0 7).cfg.offThrottle + 1 ∧
    (staged 0x102 8 0xFF 0 7).frame.dlc.toNat ≤ 8 := by decide

theorem witness_EngineRoutineWritesStatusAndGear :
    (0x2 : Word) &&& 0xF = 0x2 ∧
    (staged 0x103 1 0x0F 0 7).frame.id = (staged 0x103 1 0x0F 0 7).cfg.idEngine ∧
    (staged 0x103 1 0x0F 0 7).cfg.offEngine + 1 = (staged 0x103 1 0x0F 0 7).frame.dlc.toNat ∧
    (staged 0x103 0 0x0F 0 7).frame.dlc.toNat + 1 = (staged 0x103 0 0x0F 0 7).cfg.offEngine + 1 ∧
    (staged 0x103 8 0x0F 0 7).frame.dlc.toNat ≤ 8 := by decide

theorem witness_FaultRoutineWritesTheFaultBit :
    (0x2 : Word) &&& 0xF = 0x2 ∧
    (staged 0x104 1 0xFE 0 7).frame.id = (staged 0x104 1 0xFE 0 7).cfg.idFault ∧
    (staged 0x104 1 0xFE 0 7).cfg.offFault + 1 = (staged 0x104 1 0xFE 0 7).frame.dlc.toNat ∧
    (staged 0x104 0 0xFE 0 7).frame.dlc.toNat + 1 = (staged 0x104 0 0xFE 0 7).cfg.offFault + 1 ∧
    (staged 0x104 8 0xFE 0 7).frame.dlc.toNat ≤ 8 := by decide

/-- An unknown ID at dlc 8 and 9, a known one at dlc 9 and 15. -/
theorem witness_DecodeSkipsUnknownAndMalformedFrames :
    (0x2 : Word) &&& 0xF = 0x2 ∧
    (staged 0x105 8 0 0 0).frame.id ∉ (staged 0x105 8 0 0 0).cfg.knownIds ∧
    (staged 0x105 8 0 0 0).frame.dlc.toNat ≤ 8 ∧ 8 < (staged 0x105 9 0 0 0).frame.dlc.toNat ∧
    (staged 0x104 9 0 0 0).frame.id ∈ (staged 0x104 9 0 0 0).cfg.knownIds ∧
    8 < (staged 0x104 9 0 0 0).frame.dlc.toNat ∧ 8 < (staged 0x100 15 0 0 0).frame.dlc.toNat := by decide

/-- At dlc 2, all bytes but the first two replaced. -/
theorem witness_BytesPastTheDlcDoNotMatter :
    ∀ k, k < 8 → k < (extractorFrame 2).frame.dlc.toNat →
      ({ (extractorFrame 2).frame with data0 := 0xFFFF3412, data1 := 0xFFFFFFFF } : Frame).byte k =
        (extractorFrame 2).frame.byte k := by decide

/-- Valid fields: the last bit, all 32 bits of the high word; invalid ones: one bit too far, length 0,
length 33, dlc 9. -/
theorem witness_ExtractUnsignedGivesTheField :
    ((0x000007F8 : Word) &&& 0xF = 0x8 ∧ 63 = (0x000007F8 : Word).toNat / 16 % 64 ∧
      1 = (0x000007F8 : Word).toNat / 1024 % 64 ∧ 63 + 1 = 8 * (extractorFrame 8).frame.dlc.toNat) ∧
    ((0x00008208 : Word) &&& 0xF = 0x8 ∧ 32 = (0x00008208 : Word).toNat / 16 % 64 ∧
      32 = (0x00008208 : Word).toNat / 1024 % 64 ∧
      32 + 32 = 8 * (extractorFrame 8).frame.dlc.toNat) ∧
    ((0x000013D8 : Word) &&& 0xF = 0x8 ∧ 61 = (0x000013D8 : Word).toNat / 16 % 64 ∧
      4 = (0x000013D8 : Word).toNat / 1024 % 64 ∧
      61 + 4 = 8 * (extractorFrame 8).frame.dlc.toNat + 1) ∧
    ((0x00000008 : Word) &&& 0xF = 0x8 ∧ 0 = (0x00000008 : Word).toNat / 1024 % 64) ∧
    ((0x00008408 : Word) &&& 0xF = 0x8 ∧ 33 = (0x00008408 : Word).toNat / 1024 % 64) ∧
    8 < (extractorFrame 9).frame.dlc.toNat := by decide

theorem witness_ExtractSignedGivesTheSignedField :
    ((0x000007F9 : Word) &&& 0xF = 0x9 ∧ 63 = (0x000007F9 : Word).toNat / 16 % 64 ∧
      1 = (0x000007F9 : Word).toNat / 1024 % 64 ∧ 63 + 1 = 8 * (extractorFrame 8).frame.dlc.toNat) ∧
    ((0x00008209 : Word) &&& 0xF = 0x9 ∧ 32 = (0x00008209 : Word).toNat / 16 % 64 ∧
      32 = (0x00008209 : Word).toNat / 1024 % 64 ∧
      32 + 32 = 8 * (extractorFrame 8).frame.dlc.toNat) ∧
    ((0x000013D9 : Word) &&& 0xF = 0x9 ∧ 61 = (0x000013D9 : Word).toNat / 16 % 64 ∧
      4 = (0x000013D9 : Word).toNat / 1024 % 64 ∧
      61 + 4 = 8 * (extractorFrame 8).frame.dlc.toNat + 1) ∧
    ((0x00000009 : Word) &&& 0xF = 0x9 ∧ 0 = (0x00000009 : Word).toNat / 1024 % 64) ∧
    ((0x00008409 : Word) &&& 0xF = 0x9 ∧ 33 = (0x00008409 : Word).toNat / 1024 % 64) ∧
    8 < (extractorFrame 9).frame.dlc.toNat := by decide

theorem witness_FrameBitsAreByteBits : 63 < 64 ∧ 32 + 32 ≤ 64 ∧ 31 < 32 := by decide

theorem witness_RoutinesAreFixedExtracts : (extractorFrame 8).frame.dlc.toNat ≤ 8 := by decide

/-- The one-entry table meets its invariant. -/
theorem tracked_inv (id : CanId) (seen : Time) (count : Word) (now : Time) (h : 1 ≤ count.toNat) :
    (tracked id seen count now).track.Inv (tracked id seen count now).cfg := by
  have key : ∀ j : Fin 16, 1 ≤ j.val → (tracked id seen count now).track.entries[j] = TrackEntry.zero := by
    intro j hj
    change ((Vector.replicate 16 TrackEntry.zero).set 0 ⟨id, seen, count⟩)[j.val] = TrackEntry.zero
    rw [Vector.getElem_set_ne _ _ (by omega)]
    simp
  refine ⟨(by decide : 1 ≤ 16), fun i j hi hj _ => ?_, fun j hj => ?_, key⟩
  · change i.val < 1 at hi
    change j.val < 1 at hj
    exact Fin.ext (by omega)
  · change j.val < 1 at hj
    have hz : j = 0 := Fin.ext (by simp; omega)
    rw [hz]
    exact h

/-- TR2: elapsed 5001. -/
theorem witness_LateObserveFlagsAndChangesNothing :
    (tracked 0x100 0 1 5001).track.Inv (tracked 0x100 0 1 5001).cfg ∧ (0x5 : Word) &&& 0xF = 0x5 ∧
    (0 : Fin 16).val < (tracked 0x100 0 1 5001).track.count.toNat ∧
    (tracked 0x100 0 1 5001).track.entries[(0 : Fin 16)].id = (tracked 0x100 0 1 5001).frame.id ∧
    (tracked 0x100 0 1 5001).cfg.timeout + 1 =
      ((tracked 0x100 0 1 5001).frame.ts -
        (tracked 0x100 0 1 5001).track.entries[(0 : Fin 16)].lastSeen).toNat :=
  ⟨tracked_inv _ _ _ _ (by decide), by decide, by decide, by decide, by decide⟩

/-- TR2: elapsed 5000, and TR8: a saturated count. -/
theorem witness_OnTimeObserveRefreshesTheEntry :
    (tracked 0x100 0 0xFFFFFFFF 5000).track.Inv (tracked 0x100 0 0xFFFFFFFF 5000).cfg ∧
    (0x5 : Word) &&& 0xF = 0x5 ∧
    (0 : Fin 16).val < (tracked 0x100 0 0xFFFFFFFF 5000).track.count.toNat ∧
    (tracked 0x100 0 0xFFFFFFFF 5000).track.entries[(0 : Fin 16)].id =
      (tracked 0x100 0 0xFFFFFFFF 5000).frame.id ∧
    ((tracked 0x100 0 0xFFFFFFFF 5000).frame.ts -
      (tracked 0x100 0 0xFFFFFFFF 5000).track.entries[(0 : Fin 16)].lastSeen).toNat =
        (tracked 0x100 0 0xFFFFFFFF 5000).cfg.timeout :=
  ⟨tracked_inv _ _ _ _ (by decide), by decide, by decide, by decide, by decide⟩

/-- The empty table has room, the table of sixteen entries has none. -/
theorem witness_UnknownIdIsRegisteredWhileThereIsRoom :
    (0x5 : Word) &&& 0xF = 0x5 ∧
    State.reset.track.count.toNat < State.reset.cfg.ftCap ∧
    (∀ j : Fin 16, j.val < State.reset.track.count.toNat →
      State.reset.track.entries[j].id ≠ State.reset.frame.id) ∧
    fullTable.cfg.ftCap = fullTable.track.count.toNat ∧
    (∀ j : Fin 16, j.val < fullTable.track.count.toNat →
      fullTable.track.entries[j].id ≠ fullTable.frame.id) := by decide

/-- TR3: a late TRACK_OBSERVE pending, its completion, and a later time after it. -/
def observing : State := (tracked 0x100 0 1 5001).withPendingWord 5

/-- The run of one step from there. -/
def observingRun (k : Nat) : State := if k = 0 then observing else stepped observing

theorem witness_FlaggedEntryStaysFlagged :
    (observingRun 0).track.Inv (observingRun 0).cfg ∧
    (0 : Fin 16).val < (observingRun 0).track.count.toNat ∧
    (observingRun 0).track.entries[(0 : Fin 16)] = ⟨0x100, 0, 1⟩ ∧
    (∀ k, k < 1 → step (observingRun k) = .next (observingRun (k + 1)) ∧
      (∀ rest, (observingRun k).inputs ≠ .hardwareReset :: rest) ∧
      ∀ p, (observingRun k).pending = some p → (observingRun (k + 1)).pending = none →
        decode p.word ≠ .softReset ∧
        (decode p.word ∈ [.trackObserve, .engineEval, .frameCycle] →
          (observingRun k).frame.id = 0x100 →
          (observingRun k).cfg.timeout < ((observingRun k).frame.ts - 0).toNat)) ∧
    (observingRun 0).pending.isSome = true ∧ (observingRun 1).pending = none ∧
    (observingRun 1).frame.id = 0x100 ∧
    (observingRun 1).cfg.timeout < ((observingRun 1).frame.ts - 0).toNat ∧
    (observingRun 1).rpmSpike = false ∧ (observingRun 1).speedExceed = false := by
  refine ⟨tracked_inv 0x100 0 1 5001 (by decide), by decide, by decide, fun k hk => ?_, by decide,
    by decide, by decide, by decide, by decide, by decide⟩
  obtain rfl : k = 0 := by omega
  refine ⟨step_stepped _, fun rest h => Input.noConfusion (List.cons.inj h).1, fun p hp _ => ?_⟩
  obtain rfl : p = ⟨5, 0⟩ := (Option.some.inj hp).symm
  exact ⟨by decide, fun _ _ => by decide⟩

theorem witness_HistRecordAppendsTheSample : (0x00000006 : Word) &&& 0xF = 0x6 := by decide

/-- Every recorded buffer meets the invariant. -/
theorem recorded_inv (rpms : List (BitVec 16)) : (recorded rpms).Inv Config.default := by
  suffices h : ∀ g : History, g.Inv Config.default →
      (rpms.foldl (fun h r => h.record Config.default ⟨r, 0, 0⟩) g).Inv Config.default from
    h _ (History.empty_inv Build.default)
  induction rpms with
  | nil => exact fun g hg => hg
  | cons r rs ih => exact fun g hg => ih _ (History.record_inv Build.default hg _)

theorem witness_SumRegistersReadTheHeldSlots :
    (evaluating bufferB1 0).hist.Inv (evaluating bufferB1 0).cfg ∧
    0 < (evaluating bufferB1 0).hist.count.toNat :=
  ⟨recorded_inv _, by decide⟩

/-- Nine samples (ST10's n); ten equal ones (ST9); ST3 and ST2 on each side of the boundary. -/
theorem witness_HistEvaluateIsTheIntegerTest :
    (0x00000007 : Word) &&& 0xF = 0x7 ∧
    (recorded (List.replicate 9 1000)).count.toNat + 1 = Config.default.minSamples ∧
    Config.default.minSamples = (recorded (List.replicate 10 3000)).count.toNat ∧
    (10 : Int) * (recorded (List.replicate 10 3000)).sumSqRpm Config.default -
      (recorded (List.replicate 10 3000)).sumRpm Config.default *
        (recorded (List.replicate 10 3000)).sumRpm Config.default = 0 ∧
    Config.default.minSamples = bufferB1.count.toNat ∧
    bufferB1.sumRpm Config.default = 30000 ∧ bufferB1.sumSqRpm Config.default = 90100000 ∧
    (10 : Int) * 90100000 - 30000 * 30000 ≠ 0 ∧
    (3 : Int) * 3 * (10 * 90100000 - 30000 * 30000) < (10 * 3301 - 30000) * (10 * 3301 - 30000) ∧
    (10 * 3300 - 30000) * (10 * 3300 - 30000) = (3 : Int) * 3 * (10 * 90100000 - 30000 * 30000) := by
  decide

/-- The hypotheses only name the list, its mean, its variance and its deviation. -/
theorem witness_IntegerTestIsTheRealThreeSigmaTest :
    ∃ (s : State) (xs : List ℝ) (mean variance sd : ℝ),
      xs = (s.hist.held s.cfg).map (fun x => (x.rpm.toNat : ℝ)) ∧ xs.length = 10 ∧
      mean = xs.sum / xs.length ∧
      variance = (xs.map (fun x => (x - mean) ^ 2)).sum / xs.length ∧ sd = Real.sqrt variance :=
  ⟨evaluating bufferB1 3301, _, _, _, _, rfl, by
    rw [List.length_map, History.held_length]; decide, rfl, rfl, rfl⟩

/-- A difference of 501 flags; 500 does not; without a baseline nothing does. -/
theorem witness_RpmSpikeIsTheFirstCheck :
    (0x0000000A : Word) &&& 0xF = 0xA ∧
    ((driving 0 751 250).baseline.valid = true ∧
      ((driving 0 751 250).cfg.spike : Int) + 1 =
        |((driving 0 751 250).vs.rpm.toNat : Int) - (driving 0 751 250).baseline.prevRpm.toNat|) ∧
    (|((driving 0 750 250).vs.rpm.toNat : Int) - (driving 0 750 250).baseline.prevRpm.toNat| =
      ((driving 0 750 250).cfg.spike : Int)) ∧
    (staged 0x101 0 0 0 0).baseline.valid = false := by decide

/-- W4: 201 and 200. -/
theorem witness_SpeedExceedIsTheSecondCheck :
    (driving 201 250 250).rpmSpike = false ∧
    (driving 201 250 250).cfg.speedMax + 1 = (driving 201 250 250).vs.speed.toNat ∧
    (driving 200 250 250).rpmSpike = false ∧
    (driving 200 250 250).vs.speed.toNat = (driving 200 250 250).cfg.speedMax := by decide

/-- A late entry, and an on-time one. -/
theorem witness_CanFrequencyIsTheThirdCheck :
    ((tracked 0x100 0 1 5001).rpmSpike = false ∧ (tracked 0x100 0 1 5001).speedExceed = false ∧
      exec .trackObserve (tracked 0x100 0 1 5001) =
        .next (after .trackObserve (tracked 0x100 0 1 5001)) ∧
      (after .trackObserve (tracked 0x100 0 1 5001)).result = 2) ∧
    ((tracked 0x100 0 1 5000).rpmSpike = false ∧ (tracked 0x100 0 1 5000).speedExceed = false ∧
      exec .trackObserve (tracked 0x100 0 1 5000) =
        .next (after .trackObserve (tracked 0x100 0 1 5000)) ∧
      (after .trackObserve (tracked 0x100 0 1 5000)).result ≠ 2) :=
  ⟨⟨by decide, by decide, exec_after _ _, by decide⟩, by decide, by decide, exec_after _ _, by decide⟩

/-- An engine that is off at rpm 1. -/
def stalled (rpm : BitVec 16) : State :=
  { driving 0 rpm 0 with vs := ⟨0, rpm, 0, 0, false, false, 0⟩ }

/-- Engine off at rpm 1; engine off at rpm 0. -/
theorem witness_EngineInconsistencyIsTheFourthCheck :
    ((stalled 1).rpmSpike = false ∧ (stalled 1).speedExceed = false ∧
      exec .trackObserve (stalled 1) = .next (after .trackObserve (stalled 1)) ∧
      (after .trackObserve (stalled 1)).result ≠ 2 ∧
      (stalled 1).vs.engineStatus = false ∧ 0 < (stalled 1).vs.rpm.toNat) ∧
    ((stalled 0).rpmSpike = false ∧ (stalled 0).speedExceed = false ∧
      exec .trackObserve (stalled 0) = .next (after .trackObserve (stalled 0)) ∧
      (after .trackObserve (stalled 0)).result ≠ 2 ∧ (stalled 0).vs.rpm.toNat = 0) :=
  ⟨⟨by decide, by decide, exec_after _ _, by decide, by decide, by decide⟩, by decide, by decide,
    exec_after _ _, by decide, by decide⟩

/-- An engine that is on, with buffer B1 behind it. -/
def steady (rpm : BitVec 16) : State := { driving 0 rpm 3100 with hist := bufferB1 }

/-- The state whose ARG0 holds VS.speed and VS.rpm. -/
def withArg (s : State) : State := { s with arg0 := s.vs.speed ++ s.vs.rpm }

/-- rpm 3301 deviates (ST3). -/
theorem witness_FifthCheckAndTheUnflaggedOutcome_flagged :
    (steady 3301).rpmSpike = false ∧ (steady 3301).speedExceed = false ∧
    exec .trackObserve (steady 3301) = .next (after .trackObserve (steady 3301)) ∧
    (after .trackObserve (steady 3301)).result ≠ 2 ∧ (steady 3301).engineInconsistent = false ∧
    exec .histEvaluate (withArg (steady 3301)) = .next (after .histEvaluate (withArg (steady 3301))) ∧
    exec .histRecord (withArg (steady 3301)) = .next (after .histRecord (withArg (steady 3301))) ∧
    (after .histEvaluate (withArg (steady 3301))).result = 1 :=
  ⟨by decide, by decide, exec_after _ _, by decide, by decide, exec_after _ _, exec_after _ _, by decide⟩

/-- rpm 3300 does not (ST2). -/
theorem witness_FifthCheckAndTheUnflaggedOutcome_unflagged :
    (steady 3300).rpmSpike = false ∧ (steady 3300).speedExceed = false ∧
    exec .trackObserve (steady 3300) = .next (after .trackObserve (steady 3300)) ∧
    (after .trackObserve (steady 3300)).result ≠ 2 ∧ (steady 3300).engineInconsistent = false ∧
    exec .histEvaluate (withArg (steady 3300)) = .next (after .histEvaluate (withArg (steady 3300))) ∧
    exec .histRecord (withArg (steady 3300)) = .next (after .histRecord (withArg (steady 3300))) ∧
    (after .histEvaluate (withArg (steady 3300))).result ≠ 1 :=
  ⟨by decide, by decide, exec_after _ _, by decide, by decide, exec_after _ _, exec_after _ _, by decide⟩

theorem witness_FrameCycleIsDecodeThenEngineEval : (0x00000001 : Word) &&& 0xF = 0x1 := by decide

theorem witness_CycleResultSummarisesTheRecord :
    exec .decode (staged 0x101 2 0x03E8 0 0) = .next (after .decode (staged 0x101 2 0x03E8 0 0)) ∧
    exec .frameCycle (staged 0x101 2 0x03E8 0 0) =
      .next (after .frameCycle (staged 0x101 2 0x03E8 0 0)) ∧
    exec .engineEval (staged 0x101 2 0x03E8 0 0) =
      .next (after .engineEval (staged 0x101 2 0x03E8 0 0)) :=
  ⟨exec_after _ _, exec_after _ _, exec_after _ _⟩

theorem witness_StaleBaselineRepeatsTheSpike :
    exec .engineEval (driving 0 751 250) = .next (after .engineEval (driving 0 751 250)) ∧
    (after .engineEval (driving 0 751 250)).anomaly.type = 1 ∧
    ((driving 0 751 250).cfg.spike : Int) <
      |((⟨0, 16383, 0, 0, true, false, 0⟩ : VehicleState).rpm.toNat : Int) -
        (driving 0 751 250).baseline.prevRpm.toNat| :=
  ⟨exec_after _ _, by decide, by decide⟩

/-- The invariant holds of a state in which every part is in use, and a step is taken from it. -/
theorem witness_EveryStepKeepsTheInvariant :
    ({ tracked 0x100 0 1 5000 with hist := bufferB1, pending := some ⟨1, 0⟩ } : State).Inv ∧
    step { tracked 0x100 0 1 5000 with hist := bufferB1, pending := some ⟨1, 0⟩ } =
      .next (stepped { tracked 0x100 0 1 5000 with hist := bufferB1, pending := some ⟨1, 0⟩ }) :=
  ⟨⟨recorded_inv _, tracked_inv 0x100 0 1 5000 (by decide), ⟨by decide, by decide, by decide⟩,
    ⟨by decide, by decide, by decide⟩, by decide, by decide, by decide, by decide⟩, step_stepped _⟩

/-- VS changes: by DECODE and FRAME_CYCLE of a sufficient frame, by DECODER_RESET, SOFT_RESET and hardware
reset. -/
theorem witness_OnlyDecodesAndResetsChangeTheVehicleState :
    (stepped ((staged 0x100 2 0x0064 0 7).withPendingWord 1)).vs ≠ (staged 0x100 2 0x0064 0 7).vs ∧
    (stepped ((staged 0x100 2 0x0064 0 7).withPendingWord 2)).vs ≠ (staged 0x100 2 0x0064 0 7).vs ∧
    (stepped ((driving 1 2 3).withPendingWord 4)).vs ≠ (driving 1 2 3).vs ∧
    (stepped ((driving 1 2 3).withPendingWord 15)).vs ≠ (driving 1 2 3).vs ∧
    (stepped { driving 1 2 3 with inputs := [.hardwareReset] }).vs ≠ (driving 1 2 3).vs ∧
    ∀ s, step s = .next (stepped s) :=
  ⟨by decide, by decide, by decide, by decide, by decide, step_stepped⟩

theorem witness_StepsWithoutViolationSetNoErrorBit :
    (busyWith 0x00000000 0 []).violation = none ∧
    (busyWith 0x00000000 0 []).status = ⟨false, false, false⟩ ∧
    step (busyWith 0x00000000 0 []) = .next (stepped (busyWith 0x00000000 0 [])) :=
  ⟨by decide, by decide, step_stepped _⟩

/-- The first and the last offset of the window, idle and with one place left in the busy window. -/
theorem witness_ReadsHaveNoSideEffect :
    (0xFFC % 4 = 0 ∧ 0xFFC < 4096) ∧
    ((idleWith [rdAt 0]).inputs = .access (.read 0 4) :: [] ∧ (idleWith [rdAt 0]).pending = none) ∧
    ((busyWith 1 254 [rdAt 0xFFC]).inputs = .access (.read 0xFFC 4) :: [] ∧
      (busyWith 1 254 [rdAt 0xFFC]).pending = some ⟨1, 254⟩ ∧
      254 + 1 = (busyWith 1 254 [rdAt 0xFFC]).cfg.cmdLatency) := by decide

/-- A write of STATUS and one of the last offset, with one place left in the busy window. -/
theorem witness_WriteWhileBusyOnlySetsOverrun :
    ((busyWith 1 254 [wrAt 0x01C 4]).pending = some ⟨1, 254⟩ ∧ 0x01C % 4 = 0 ∧ 0x01C < 4096 ∧
      254 + 1 = (busyWith 1 254 [wrAt 0x01C 4]).cfg.cmdLatency ∧
      (busyWith 1 254 [wrAt 0x01C 4]).inputs = .access (.write 0x01C 4 4) :: []) ∧
    ((busyWith 1 0 [wrAt 0xFFC 4]).inputs = .access (.write 0xFFC 4 4) :: [] ∧ 0xFFC % 4 = 0 ∧
      0xFFC < 4096) := by decide

/-- Each of the seven offsets. -/
theorem witness_IdleWritesReachTheirRegister :
    ∀ off ∈ [0x000, 0x004, 0x008, 0x00C, 0x010, 0x014, 0x01C],
      (idleWith [wrAt off 0xFFFFFFFF]).pending = none ∧
      (idleWith [wrAt off 0xFFFFFFFF]).inputs = .access (.write off 4 0xFFFFFFFF) :: [] := by decide

/-- The ends of each unnamed range; the first and the last offset that an idle write does not reach; a byte
access, a misaligned one and one just outside the window. -/
theorem witness_IgnoredAccessesDoNothing :
    (∀ off ∈ [0x050, 0x0FC, 0x300, 0xFFC, 0x20C, 0x2FC], off % 4 = 0 ∧
      ((0x050 ≤ off ∧ off < 0x100) ∨ (0x300 ≤ off ∧ off < 0x1000) ∨
        (0x200 ≤ off ∧ off < 0x300 ∧ off % 16 = 12))) ∧
    (∀ off ∈ [0x020, 0xFFC], off % 4 = 0 ∧ 0x020 ≤ off ∧ off < 4096 ∧
      (idleWith [wrAt off 1]).pending = none ∧
      (idleWith [wrAt off 1]).inputs = .access (.write off 4 1) :: []) ∧
    (∀ a ∈ [(0x000, 1), (0x002, 4), (0x1000, 4)],
      ¬ (a.2 = 4 ∧ a.1 % 4 = 0 ∧ a.1 < 4096) ∧
      (idleWith [.access (.write a.1 a.2 1)]).pending = none ∧
      (idleWith [.access (.write a.1 a.2 1)]).inputs = .access (.write a.1 a.2 1) :: [] ∧
      (idleWith [.access (.read a.1 a.2)]).inputs = .access (.read a.1 a.2) :: [] ∧
      (busyWith 1 254 [.access (.write a.1 a.2 1)]).pending = some ⟨1, 254⟩ ∧
      254 + 1 = (busyWith 1 254 [.access (.write a.1 a.2 1)]).cfg.cmdLatency ∧
      (busyWith 1 254 [.access (.write a.1 a.2 1)]).inputs = .access (.write a.1 a.2 1) :: [] ∧
      (busyWith 1 254 [.access (.read a.1 a.2)]).inputs = .access (.read a.1 a.2) :: []) := by decide

/-- Slot 9 lies in a buffer of ten and slot 10 does not; slot 10 of B1's buffer is not written; entry 0 is
stored and entry 1 is not. -/
theorem witness_WindowsShowSlotsAndEntries :
    (9 : Fin 32).val < smallBuild.val.histCap ∧ smallBuild.val.histCap ≤ (10 : Fin 32).val ∧
    ((evaluating bufferB1 0).hist.Inv (evaluating bufferB1 0).cfg ∧
      (evaluating bufferB1 0).hist.count.toNat ≤ (10 : Fin 32).val) ∧
    (0 : Fin 16).val < (tracked 0x100 0 1 0).track.count.toNat ∧
    (tracked 0x100 0 1 0).track.count.toNat ≤ (1 : Fin 16).val :=
  ⟨by decide, by decide, ⟨recorded_inv _, by decide⟩, by decide, by decide⟩

theorem witness_TheWindowIsLittleEndian : 0xFFC % 4 = 0 ∧ 3 < 4 ∧ 7 < 8 := by decide

/-- A command with accesses to land, and one that a reset abandons. -/
theorem witness_BusyEndsWithinTheLatency :
    (busyWith 1 0 [rdAt 0x01C, wrAt 0 1]).pending = some ⟨1, 0⟩ ∧
    .hardwareReset ∉ (busyWith 1 0 [rdAt 0x01C, wrAt 0 1]).inputs ∧
    (busyWith 1 255 [.hardwareReset]).pending.isSome = true := by decide

/-- No busy poll, and as many as P_CMD_LATENCY. -/
theorem witness_CommandThenWaitRunsTheCommand :
    (Instr.extractU 63 63).wellFormed = true ∧
    (idleWith (expand 0 (.cmd (.extractU 63 63)) ++ expand 0 .wait ++ [])).pending = none ∧
    0 ≤ (idleWith (expand 0 (.cmd (.extractU 63 63)) ++ expand 0 .wait ++ [])).cfg.cmdLatency ∧
    255 = (idleWith (expand 0 (.cmd (.extractU 63 63)) ++ expand 255 .wait ++ [])).cfg.cmdLatency := by
  decide

/-- Eight bytes and none. -/
theorem witness_FrameAndArgLinesStageTheInputs :
    ([1, 2, 3, 4, 5, 6, 7, 8] : List Byte).length ≤ 8 ∧
    (idleWith (expand 0 (.frame 0xFFF 0xFF [1, 2, 3, 4, 5, 6, 7, 8] 7) ++ [])).pending = none ∧
    (idleWith (expand 0 (.arg 3000 5) ++ [])).pending = none := by decide

end Sys2Proof.Tests
end

section
/-! The step of an idle block (00_scope.md R4, 60_exceptions.md R258). -/

namespace Sys2Proof.Machine

/-- With nothing pending and no input left, the next move is to stay idle. -/
theorem nextMove_idle {s : State} (hp : s.pending = none) (hi : s.inputs = []) :
    s.nextMove = .idle [] := by
  simp only [State.nextMove, hi, hp]

/-- An idle move takes the inputs up to what is left of them and changes nothing else. -/
theorem step_of_nextMove_idle {s : State} {rest : List Input} (h : s.nextMove = .idle rest) :
    step s = .next { s with inputs := rest } := by
  simp only [step, h]

/-- Settles O4: the next move is idle with no input left, and the inputs were empty before. -/
theorem idleBlockKeepsItsState : Obligations.IdleBlockKeepsItsState := by
  intro s hp hi
  have hmove : s.nextMove = .idle s.inputs := hi ▸ nextMove_idle hp hi
  exact step_of_nextMove_idle hmove

end Sys2Proof.Machine
end

section
/-! The block's invariant (10_state.md R50) under each change of the state, and so under every step. -/

namespace Sys2Proof.Machine

namespace State.Inv

/-- The invariant speaks of none of the input registers, OVERRUN, RESULT, the busy state and the outside
world. -/
theorem of_host {s : State} (h : s.Inv) (f : Frame) (g : Word) (o : Bool) (r : Word)
    (p : Option Pending) (ins : List Input) (ans : List Word) :
    State.Inv { s with
      frame := f, arg0 := g, status := { s.status with overrun := o }, result := r
      pending := p, inputs := ins, answers := ans } :=
  ⟨h.hist, h.track, h.vs, h.snap, h.baseline, h.anomaly_absent, h.anomaly_present, h.one_status⟩

/-- Completing a command keeps the invariant, unless it sets both bits that exclude each other (R253). -/
theorem finishWith {s : State} (h : s.Inv) {illegal invalid : Bool}
    (hx : ¬ (illegal = true ∧ invalid = true)) (r : Word) : (s.finishWith illegal invalid r).Inv :=
  ⟨h.hist, h.track, h.vs, h.snap, h.baseline, h.anomaly_absent, h.anomaly_present, hx⟩

theorem finish {s : State} (h : s.Inv) (r : Word) : (s.finish r).Inv := h.finishWith (by simp) r

theorem reserved {s : State} (h : s.Inv) : s.reserved.Inv := h.finishWith (by simp) 0

theorem extract {s : State} (h : s.Inv) (start len : Nat) (v : Word) : (s.extract start len v).Inv := by
  unfold State.extract
  split
  · exact h.finish v
  · exact h.finishWith (by simp) 0

theorem with_vs {s : State} (h : s.Inv) {v : VehicleState} (hv : v.InRange) :
    State.Inv { s with vs := v } :=
  ⟨h.hist, h.track, hv, h.snap, h.baseline, h.anomaly_absent, h.anomaly_present, h.one_status⟩

theorem with_snap {s : State} (h : s.Inv) {v : VehicleState} (hv : v.InRange) :
    State.Inv { s with snap := v } :=
  ⟨h.hist, h.track, h.vs, hv, h.baseline, h.anomaly_absent, h.anomaly_present, h.one_status⟩

theorem with_hist {s : State} (h : s.Inv) {b : History} (hb : b.Inv s.cfg) :
    State.Inv { s with hist := b } :=
  ⟨hb, h.track, h.vs, h.snap, h.baseline, h.anomaly_absent, h.anomaly_present, h.one_status⟩

theorem with_track {s : State} (h : s.Inv) {t : FreqTable} (ht : t.Inv s.cfg) :
    State.Inv { s with track := t } :=
  ⟨h.hist, ht, h.vs, h.snap, h.baseline, h.anomaly_absent, h.anomaly_present, h.one_status⟩

end State.Inv

/-- Every variant but the unused MISSING_MESSAGE has a produced (TYPE, SEVERITY) pair (R38, R158). -/
theorem AnomalyType.produced {k : AnomalyType} (hk : k ≠ .missingMessage) :
    (k.code, k.severity) ∈ producedAnomalies := by
  revert hk
  cases k <;> decide

namespace State.Inv

/-- A flagged outcome writes a record that holds an anomaly of its variant (R198). -/
theorem flag {s : State} (h : s.Inv) {k : AnomalyType} (hk : k ≠ .missingMessage) :
    (s.flag k).Inv where
  hist := h.hist
  track := h.track
  vs := h.vs
  snap := h.snap
  baseline := h.baseline
  anomaly_absent := fun habs => by simp at habs
  anomaly_present := fun _ => AnomalyType.produced hk
  one_status := h.one_status

/-- An unflagged outcome clears the record, appends a sample and makes the baseline valid (R199). -/
theorem unflagged {s : State} (h : s.Inv) : s.unflagged.Inv where
  hist := History.record_inv s.build h.hist _
  track := h.track
  vs := h.vs
  snap := h.snap
  baseline := fun hinv => by simp at hinv
  anomaly_absent := fun _ => rfl
  anomaly_present := fun hpres => by simp [Anomaly.none] at hpres
  one_status := h.one_status

/-- A cycle is an Observe or none, and one of the two outcomes (R201). -/
theorem engineEval {s : State} (h : s.Inv) : s.engineEval.Inv := by
  obtain ⟨ft, hft, hout⟩ := engineEval_outcome s
  have hinv : ft.Inv s.cfg := by
    obtain rfl | rfl := hft
    · exact h.track
    · exact observe_inv s.build h.track _ _
  obtain ⟨k, hk, e⟩ | e := hout
  · exact e ▸ (h.with_track hinv).flag hk
  · exact e ▸ (h.with_track hinv).unflagged

end State.Inv

/-- The zero VehicleState is in range (R52). -/
theorem VehicleState.zero_inRange : VehicleState.zero.InRange := ⟨by decide, by decide, by decide⟩

/-- A hardware reset establishes the invariant, from any state (R50, R270). -/
theorem hardwareReset_inv (s : State) : s.hardwareReset.Inv where
  hist := History.empty_inv s.build
  track := FreqTable.empty_inv s.cfg
  vs := VehicleState.zero_inRange
  snap := VehicleState.zero_inRange
  baseline := fun _ => rfl
  anomaly_absent := fun _ => rfl
  anomaly_present := fun hpres => by simp [Anomaly.none] at hpres
  one_status := by simp

/-- So does SOFT_RESET, which differs only in what the invariant does not speak of (R232). -/
theorem softReset_inv (s : State) : s.softReset.Inv :=
  (hardwareReset_inv s).of_host s.frame s.arg0 s.status.overrun 0 none s.inputs s.answers

/-- Every command keeps the invariant. -/
theorem exec_keeps_inv (i : Instr) {s t : State} (h : s.Inv) (he : exec i s = .next t) : t.Inv := by
  cases i with
  | nop => cases he; exact h.finish _
  | frameCycle => cases he; exact (h.with_vs (decodeFrame_inRange _ _ h.vs)).engineEval.finish _
  | decode => cases he; exact (h.with_vs (decodeFrame_inRange _ _ h.vs)).finish _
  | getState => cases he; exact (h.with_snap h.vs).finish _
  | decoderReset => cases he; exact (h.with_vs VehicleState.zero_inRange).finish _
  | trackObserve => cases he; exact (h.with_track (observe_inv s.build h.track _ _)).finish _
  | histRecord => cases he; exact (h.with_hist (History.record_inv s.build h.hist _)).finish _
  | histEvaluate => cases he; exact h.finish _
  | extractU start len => cases he; exact h.extract start len _
  | extractS start len => cases he; exact h.extract start len _
  | engineEval => cases he; exact h.engineEval.finish _
  | reservedB => cases he; exact h.reserved
  | reservedC => cases he; exact h.reserved
  | reservedD => cases he; exact h.reserved
  | reservedE => cases he; exact h.reserved
  | softReset => cases he; exact (softReset_inv s).finish _

/-- A host access keeps the invariant: it writes nothing that the invariant speaks of. -/
theorem hostAccess_inv {s : State} (h : s.Inv) (a : Access) : (s.hostAccess a).Inv := by
  obtain ⟨f, g, o, p, ans, e⟩ := hostAccess_frame s a
  exact e ▸ h.of_host f g o s.result p s.inputs ans

/-- Settles O47: a step is nothing, a host access, a command or a reset, and each keeps the invariant. -/
theorem everyStepKeepsTheInvariant : Obligations.EveryStepKeepsTheInvariant := by
  intro s t h hs
  have hin : ∀ rest, State.Inv { s with inputs := rest } := fun rest =>
    h.of_host s.frame s.arg0 s.status.overrun s.result s.pending rest s.answers
  obtain ⟨rest, _, e⟩ | ⟨a, rest, _, e⟩ | ⟨c, rest, _, e⟩ | ⟨rest, _, e⟩ := step_cases s <;>
    rw [e] at hs
  · cases hs; exact hin rest
  · cases hs; exact hostAccess_inv (hin rest) a
  · exact exec_keeps_inv (decode c) (hin rest) hs
  · cases hs; exact hardwareReset_inv _

/-- Settles O48: the reset state is what a hardware reset makes of it. -/
theorem resetMeetsTheBlockInvariant : Obligations.ResetMeetsTheBlockInvariant :=
  hardwareReset_inv State.reset

end Sys2Proof.Machine
end

section
/-! What a command leaves of the stored bits of STATUS (10_state.md R32, 44_control.md R231). -/

namespace Sys2Proof.Machine

/-- CMD_ILLEGAL after a command: it had a reserved opcode (R233). -/
def illegalAfter (i : Instr) : Bool := decide (i ∈ [.reservedB, .reservedC, .reservedD, .reservedE])

/-- EXT_INVALID after a command: it was an extract of an invalid field (R120, R122, R123). -/
def invalidAfter (f : Frame) : Instr → Bool
  | .extractU start len => !f.fieldValid start len
  | .extractS start len => !f.fieldValid start len
  | _ => false

/-- An extract sets EXT_INVALID exactly when its field is invalid, and never CMD_ILLEGAL (R122, R123). -/
theorem State.extract_status (s : State) (start len : Nat) (v : Word) :
    (s.extract start len v).status = ⟨false, s.status.overrun, !s.frame.fieldValid start len⟩ := by
  unfold State.extract
  cases s.frame.fieldValid start len <;> rfl

/-- Every command writes the two bits afresh and keeps OVERRUN (R231). -/
theorem exec_status (i : Instr) {s t : State} (he : exec i s = .next t) :
    t.status = ⟨illegalAfter i, s.status.overrun, invalidAfter s.frame i⟩ := by
  cases i with
  | frameCycle =>
    cases he
    obtain ⟨_, _, hst, _⟩ :=
      engineEval_frame { s with vs := (decodeFrame s.cfg s.frame s.vs).vs }
    rw [State.finish_status, hst]
    rfl
  | engineEval =>
    cases he
    obtain ⟨_, _, hst, _⟩ := engineEval_frame s
    rw [State.finish_status, hst]
    rfl
  | extractU start len => cases he; exact s.extract_status start len _
  | extractS start len => cases he; exact s.extract_status start len _
  | _ => cases he; rfl

theorem illegalAfter_iff (i : Instr) :
    illegalAfter i = true ↔ i ∈ [.reservedB, .reservedC, .reservedD, .reservedE] :=
  decide_eq_true_iff

theorem invalidAfter_iff (f : Frame) (i : Instr) :
    invalidAfter f i = true ↔
      ∃ start len, (i = .extractU start len ∨ i = .extractS start len) ∧
        ¬ f.fieldValid start len = true := by
  cases i <;> simp [invalidAfter]

/-- A reserved opcode is no extract (R253). -/
theorem not_illegalAfter_and_invalidAfter (f : Frame) (i : Instr) :
    ¬ (illegalAfter i = true ∧ invalidAfter f i = true) := by
  rw [illegalAfter_iff, invalidAfter_iff]
  rintro ⟨hmem, start, len, rfl | rfl, _⟩ <;> simp at hmem

/-- Settles O45: every command completes, with the two bits as `exec_status` says. -/
theorem commandsWriteStatusAfresh : Obligations.CommandsWriteStatusAfresh := by
  intro i s
  obtain ⟨t, he, hc⟩ := exec_completes i s
  have hst := exec_status i he
  refine ⟨t, he, hc.pending, ?_, ?_, ?_, hc.overrun, hc.build, hc.inputs, hc.answers⟩
  · rw [hst]; exact illegalAfter_iff i
  · simp only [hst, invalidAfter_iff, Frame.fieldValid_iff]
  · rw [hst]; exact not_illegalAfter_and_invalidAfter s.frame i

end Sys2Proof.Machine
end

section
/-! What can change VS (10_state.md R22). -/

namespace Sys2Proof.Machine

/-- What a command can do to VS: nothing, the zero of a reset, or one Decode of the staged frame (R22,
R234). -/
theorem exec_vs (i : Instr) {s t : State} (he : exec i s = .next t) :
    t.vs = s.vs ∨ ((i = .decoderReset ∨ i = .softReset) ∧ t.vs = VehicleState.zero) ∨
    ((i = .decode ∨ i = .frameCycle) ∧ t.vs = (decodeFrame s.cfg s.frame s.vs).vs) := by
  cases i with
  | decoderReset => cases he; exact .inr (.inl ⟨.inl rfl, rfl⟩)
  | softReset => cases he; exact .inr (.inl ⟨.inr rfl, rfl⟩)
  | decode => cases he; exact .inr (.inr ⟨.inl rfl, rfl⟩)
  | frameCycle =>
    cases he
    obtain ⟨_, _, _, hvs, _⟩ :=
      engineEval_frame { s with vs := (decodeFrame s.cfg s.frame s.vs).vs }
    exact .inr (.inr ⟨.inr rfl, hvs⟩)
  | engineEval =>
    cases he
    obtain ⟨_, _, _, hvs, _⟩ := engineEval_frame s
    exact .inl hvs
  | extractU start len => cases he; unfold State.extract; split <;> exact .inl rfl
  | extractS start len => cases he; unfold State.extract; split <;> exact .inl rfl
  | _ => cases he; exact .inl rfl

/-- A Decode that changes VS had a recognised ID and its field inside a DLC of at most 8 (R110, R111). -/
theorem decodeFrame_changes {c : Config} {f : Frame} {vs : VehicleState}
    (hne : (decodeFrame c f vs).vs ≠ vs) :
    ∃ r : Routine, routineOf c f.id = some r ∧
      r.offset c + r.width ≤ f.dlc.toNat ∧ f.dlc.toNat ≤ 8 := by
  obtain ⟨_, e⟩ | ⟨_, _, _, e⟩ | ⟨r, hr, happ, _, _⟩ := decodeFrame_cases c f vs
  · exact absurd (congrArg Decoded.vs e) hne
  · exact absurd (congrArg Decoded.vs e) hne
  · obtain ⟨hdlc, hfield⟩ := (r.applies_iff c f).mp happ
    exact ⟨r, hr, hfield, hdlc⟩

/-- Only a hardware reset among the inputs is a reset move (R270). -/
theorem nextMove_reset {s : State} {rest : List Input} (h : s.nextMove = .reset rest) :
    s.inputs = .hardwareReset :: rest := by
  unfold State.nextMove at h
  split at h
  next hi => rw [hi, Move.reset.inj h]
  next => split at h <;> cases h
  next =>
    split at h
    next => cases h
    next => split at h <;> cases h
  next => split at h <;> cases h

/-- Settles O49: a step that changes VS is a reset or a command, and of the commands `exec_vs` and
`decodeFrame_changes` leave the named ones. -/
theorem onlyDecodesAndResetsChangeTheVehicleState :
    Obligations.OnlyDecodesAndResetsChangeTheVehicleState := by
  intro s t hs
  obtain ⟨rest, _, e⟩ | ⟨a, rest, _, e⟩ | ⟨c, rest, hmove, e⟩ | ⟨rest, hmove, e⟩ := step_cases s <;>
    rw [e] at hs
  · cases hs
    exact ⟨rfl, fun hne => absurd rfl hne⟩
  · cases hs
    obtain ⟨f, g, o, p, ans, hacc⟩ := hostAccess_frame { s with inputs := rest } a
    rw [hacc]
    exact ⟨rfl, fun hne => absurd rfl hne⟩
  · obtain ⟨p, hp, rfl⟩ := nextMove_complete hmove
    obtain ⟨u, hu, hc⟩ := exec_completes (decode p.word) { s with inputs := rest }
    obtain rfl : u = t := Host.Outcome.next.inj (hu.symm.trans hs)
    refine ⟨hc.build, fun hne => .inr ⟨p, hp, hc.pending, ?_⟩⟩
    obtain hvs | ⟨hreset | hreset, _⟩ | ⟨hdec, hvs⟩ := exec_vs _ hs
    · exact absurd hvs hne
    · exact .inl hreset
    · exact .inr (.inl hreset)
    · exact .inr (.inr ⟨hdec, decodeFrame_changes (hvs ▸ hne)⟩)
  · cases hs
    exact ⟨rfl, fun _ => .inl ⟨rest, nextMove_reset hmove⟩⟩

end Sys2Proof.Machine
end

section
/-! No command's outcome depends on a data byte at or past the DLC (10_state.md R28). -/

namespace Sys2Proof.Machine

/-- The frame with other data registers. -/
abbrev Frame.withData (f : Frame) (d0 d1 : Word) : Frame := { f with data0 := d0, data1 := d1 }

section
variable {f : Frame} {d0 d1 : Word}
  (hagree : ∀ k, k < 8 → k < f.dlc.toNat → (f.withData d0 d1).byte k = f.byte k)
include hagree

/-- A routine writes the same from either data, if its field lies inside the DLC (R111). -/
theorem Routine.write_withData (r : Routine) {o : Nat} (hdlc : f.dlc.toNat ≤ 8)
    (hfield : o + r.width ≤ f.dlc.toNat) (vs : VehicleState) :
    r.write (f.withData d0 d1) o vs = r.write f o vs := by
  have hbyte : ∀ k < r.width, (f.withData d0 d1).byte (o + k) = f.byte (o + k) :=
    fun k hk => hagree _ (by omega) (by omega)
  have hfirst : (f.withData d0 d1).byte o = f.byte o := hbyte 0 (by cases r <;> decide)
  cases r with
  | speed => simp only [Routine.write, Frame.raw16, hfirst, hbyte 1 (by decide)]
  | rpm => simp only [Routine.write, Frame.raw16, hfirst, hbyte 1 (by decide)]
  | throttle => simp only [Routine.write, hfirst]
  | engine => simp only [Routine.write, hfirst]
  | fault => simp only [Routine.write, hfirst]

/-- Decode answers the same from either data: it writes only when the field lies inside the DLC (R110). -/
theorem decodeFrame_withData (c : Config) (vs : VehicleState) :
    decodeFrame c (f.withData d0 d1) vs = decodeFrame c f vs := by
  unfold decodeFrame
  cases routineOf c f.id with
  | none => rfl
  | some r =>
    by_cases happ : r.applies c f = true
    · obtain ⟨hdlc, hfield⟩ := (r.applies_iff c f).mp happ
      have hwrite := r.write_withData hagree hdlc hfield vs
      refine (if_pos happ).trans (Eq.trans ?_ (if_pos happ).symm)
      rw [hwrite]
      rfl
    · exact (if_neg happ).trans (if_neg happ).symm

/-- A valid field has the same value from either data: each of its bits lies in a byte below the DLC
(R119, R120). -/
theorem Frame.extractU_withData {start len : Nat} (hv : f.fieldValid start len = true) :
    (f.withData d0 d1).extractU start len = f.extractU start len := by
  obtain ⟨hdlc, _, _, hfield⟩ := (f.fieldValid_iff start len).mp hv
  apply Nat.eq_of_testBit_eq
  intro j
  rw [Frame.extractU_bit, Frame.extractU_bit]
  by_cases hj : j < len
  · have hbyte := hagree ((start + j) / 8) (by omega) (by omega)
    rw [Frame.word_bit _ (by omega), Frame.word_bit _ (by omega), hbyte]
  · simp only [hj, decide_false, Bool.false_and]

end

/-- An extract does the same from either data, if the two values agree wherever the field is valid
(R120). -/
theorem State.extract_withData (s : State) (d0 d1 : Word) {start len : Nat} {v v' : Word}
    (hvalue : s.frame.fieldValid start len = true → v' = v) :
    ({ s with frame := s.frame.withData d0 d1 } : State).extract start len v' =
      { s.extract start len v with frame := s.frame.withData d0 d1 } := by
  unfold State.extract
  by_cases hv : s.frame.fieldValid start len = true
  · rw [hvalue hv, if_pos hv]
    exact if_pos hv
  · rw [if_neg hv]
    exact if_neg hv

/-- A cycle writes no more than the table, the record, the buffer and the baseline (R190). -/
theorem engineEval_writes (s : State) :
    ∃ ft an h b, s.engineEval = { s with track := ft, anomaly := an, hist := h, baseline := b } := by
  obtain ⟨ft, _, ⟨k, _, e⟩ | e⟩ := engineEval_outcome s
  · exact ⟨ft, _, _, _, e⟩
  · exact ⟨ft, _, _, _, e⟩

/-- A cycle does not look at the data registers (R191). -/
theorem engineEval_withData (s : State) (d0 d1 : Word) :
    ({ s with frame := s.frame.withData d0 d1 } : State).engineEval =
      { s.engineEval with frame := s.frame.withData d0 d1 } := by
  refine (engineEval_indep s d0 d1 s.arg0 s.result s.status s.snap s.anomaly s.pending s.inputs
    s.answers).trans ?_
  obtain ⟨ft, an, h, b, e⟩ := engineEval_writes s
  rw [e]

/-- Settles O21: Decode and the extractor answer the same from either data, and no other part of a command
looks at the data registers. -/
theorem bytesPastTheDlcDoNotMatter : Obligations.BytesPastTheDlcDoNotMatter := by
  intro i s d0 d1 hagree
  have hdec := decodeFrame_withData hagree s.cfg s.vs
  cases i with
  | frameCycle =>
    refine ⟨_, rfl, congrArg Host.Outcome.next ?_⟩
    have hcyc := engineEval_withData { s with vs := (decodeFrame s.cfg s.frame s.vs).vs } d0 d1
    simp only [State.cfg] at hdec hcyc ⊢
    rw [hdec, hcyc]
    rfl
  | engineEval =>
    refine ⟨_, rfl, congrArg Host.Outcome.next ?_⟩
    rw [engineEval_withData]
    rfl
  | decode =>
    refine ⟨_, rfl, congrArg Host.Outcome.next ?_⟩
    simp only [State.cfg] at hdec ⊢
    rw [hdec]
    rfl
  | extractU start len =>
    exact ⟨_, rfl, congrArg Host.Outcome.next (s.extract_withData d0 d1 fun hv =>
      congrArg (BitVec.ofNat 32) (Frame.extractU_withData hagree hv))⟩
  | extractS start len =>
    exact ⟨_, rfl, congrArg Host.Outcome.next (s.extract_withData d0 d1 fun hv =>
      congrArg (sext32 len) (Frame.extractU_withData hagree hv))⟩
  | _ => exact ⟨_, rfl, rfl⟩

end Sys2Proof.Machine
end

section
/-! Hardware reset, the completion of a pending command, and the start of one (10_state.md R31, R51,
R52). -/

namespace Sys2Proof.Machine

/-- A hardware reset at the head of the inputs is the next step, busy or not (R270). -/
theorem step_hardwareReset {s : State} {rest : List Input} (hi : s.inputs = .hardwareReset :: rest) :
    step s = .next { s with inputs := rest }.hardwareReset := by
  simp only [step, State.nextMove, hi]

/-- Settles O1: the reset state is written out, and a reset step gives `State.hardwareReset`. -/
theorem hardwareResetZeroesEveryElement : Obligations.HardwareResetZeroesEveryElement :=
  ⟨⟨rfl, rfl, rfl, rfl, rfl, rfl, rfl, rfl, rfl, History.empty_slots, rfl, rfl,
    FreqTable.empty_entries, rfl⟩, fun _ _ hi => step_hardwareReset hi⟩

/-- A completion that takes no input runs the command on the state as it is. -/
theorem step_of_nextMove_complete {s : State} {c : Word} (h : s.nextMove = .complete c s.inputs) :
    step s = exec (decode c) s := by
  simp only [step, h]

/-- With no input left, the pending command completes. -/
theorem nextMove_complete_of_nil {s : State} {p : Pending} (hp : s.pending = some p)
    (hi : s.inputs = []) : s.nextMove = .complete p.word s.inputs := by
  simp only [State.nextMove, hi, hp]

/-- After P_CMD_LATENCY landed accesses, the pending command completes before the next one (R290). -/
theorem nextMove_complete_of_landed {s : State} {p : Pending} {a : Access} {rest : List Input}
    (hp : s.pending = some p) (hi : s.inputs = .access a :: rest)
    (hl : s.cfg.cmdLatency ≤ p.landed) : s.nextMove = .complete p.word s.inputs := by
  simp only [State.nextMove, hi, hp, if_neg (Nat.not_lt.mpr hl)]

/-- Settles O2, one lemma for each way the latency of a command ends. -/
theorem stepRunsThePendingCommand : Obligations.StepRunsThePendingCommand := by
  intro s p hp
  refine ⟨fun rest hi => step_latencyElapsed hp hi, fun hi => ?_, fun a rest hi hl => ?_⟩
  · exact step_of_nextMove_complete (nextMove_complete_of_nil hp hi)
  · exact step_of_nextMove_complete (nextMove_complete_of_landed hp hi hl)

/-- STATUS.BUSY as the host reads it (R32). -/
theorem readWord_status_busy (s : State) : (s.readWord 0x01C).getLsbD 0 = s.busy :=
  statusWord_busy s.busy s.status

/-- Settles O3: an idle write of CMD makes its value pending, and that is what BUSY reads. -/
theorem cmdWriteStartsTheCommand : Obligations.CmdWriteStartsTheCommand := by
  refine ⟨fun s v rest hp hi => ⟨_, step_write_idle hp (by decide) hi, rfl, ?_⟩, fun s => rfl⟩
  rw [readWord_status_busy]
  rfl

end Sys2Proof.Machine
end

section
/-! What the registers and the windows read, and what an idle write leaves (10_state.md R26-R49). -/

namespace Sys2Proof.Machine

/-- Settles O60: each offset is its register's (R25), whose read is written out. -/
theorem registersReadTheirElements : Obligations.RegistersReadTheirElements := fun s =>
  ⟨readWord_offset s .frameId, readWord_offset s .frameDlc, readWord_offset s .frameData0,
    readWord_offset s .frameData1, readWord_offset s .frameTs, readWord_offset s .arg0,
    readWord_offset s .status, readWord_offset s .result, readWord_offset s .snapSpeedRpm,
    readWord_offset s .snapMisc, readWord_offset s .snapTs, readWord_offset s .anomStatus,
    readWord_offset s .anomTs, readWord_offset s .baseline⟩

/-- Reserved bits above an element do not change its value. -/
theorem zero_append_toNat {k n : Nat} (x : BitVec n) : (0#k ++ x).toNat = x.toNat := by
  simp [BitVec.toNat_append]

/-- The low n bits of a vector as a number. -/
theorem extractLow_toNat {w : Nat} (v : BitVec w) (n : Nat) :
    (v.extractLsb' 0 n).toNat = v.toNat % 2 ^ n := by
  rw [BitVec.extractLsb'_toNat, Nat.shiftRight_zero]

/-- FRAME_ID reads back what a write stored, its reserved bits 0 (R26). -/
theorem readBack_frameId (v : Word) : 0#21 ++ v.extractLsb' 0 11 = v &&& 0x7FF := by
  apply BitVec.eq_of_toNat_eq
  calc (0#21 ++ v.extractLsb' 0 11).toNat = (v.extractLsb' 0 11).toNat := zero_append_toNat _
    _ = v.toNat % 2 ^ 11 := extractLow_toNat v 11
    _ = v.toNat &&& (2 ^ 11 - 1) := (Nat.and_two_pow_sub_one_eq_mod v.toNat 11).symm
    _ = (v &&& 0x7FF).toNat := (BitVec.toNat_and v 0x7FF).symm

/-- FRAME_DLC reads back what a write stored, its reserved bits 0 (R27). -/
theorem readBack_frameDlc (v : Word) : 0#28 ++ v.extractLsb' 0 4 = v &&& 0xF := by
  apply BitVec.eq_of_toNat_eq
  calc (0#28 ++ v.extractLsb' 0 4).toNat = (v.extractLsb' 0 4).toNat := zero_append_toNat _
    _ = v.toNat % 2 ^ 4 := extractLow_toNat v 4
    _ = (v &&& 0xF).toNat := (and_low_nibble_toNat v).symm

/-- A write of STATUS clears OVERRUN by bit 2 alone (R32). -/
theorem writeIdle_status (s : State) (v : Word) :
    s.writeIdle 0x01C v =
      { s with status := { s.status with overrun := s.status.overrun && !v.getLsbD 2 } } := by
  change (if v.getLsbD 2 then { s with status := { s.status with overrun := false } } else s) = _
  cases v.getLsbD 2 <;> simp

/-- Settles O53: at each offset the step is `State.writeIdle`'s, and the register reads the new bits. -/
theorem idleWritesReachTheirRegister : Obligations.IdleWritesReachTheirRegister := by
  intro s off v rest hp hi
  refine ⟨_, step_access_idle hp hi, ?_⟩
  have hrest : ({ s with inputs := rest } : State).pending = none := hp
  refine ⟨?_, ?_, ?_, ?_, ?_, ?_, ?_⟩ <;> rintro rfl <;>
    rw [hostAccess_write_idle hrest (by decide)]
  · exact ⟨rfl, readBack_frameId v⟩
  · exact ⟨rfl, readBack_frameDlc v⟩
  · exact ⟨rfl, rfl⟩
  · exact ⟨rfl, rfl⟩
  · exact ⟨rfl, rfl⟩
  · exact ⟨rfl, rfl⟩
  · exact writeIdle_status _ v

/-- Word +12 of an FT entry is no register (R49, R74). -/
theorem regAt_entryReserved : ∀ j : Fin 16, regAt (0x20C + 16 * j.val) = none := by decide

theorem readWord_entryReserved (s : State) (j : Fin 16) : s.readWord (0x20C + 16 * j.val) = 0 := by
  simp only [State.readWord, regAt_entryReserved]

/-- The two words of a HIST slot show its sample (R46). -/
theorem readWord_slot {s : State} {i : Fin 32} {x : Sample} (h : s.shownSlot i = x) :
    s.readWord (0x100 + 8 * i.val) = x.speed ++ x.rpm ∧ s.readWord (0x104 + 8 * i.val) = x.ts :=
  h ▸ ⟨readWord_offset s (.histRS i), readWord_offset s (.histTS i)⟩

/-- The four words of an FT entry show it, with VALID at the top of the first (R49). -/
theorem readWord_entry {s : State} {j : Fin 16} {e : TrackEntry} (h : s.shownEntry j = e) :
    s.readWord (0x200 + 16 * j.val) = BitVec.ofBool (s.entryValid j) ++ 0#20 ++ e.id ∧
      s.readWord (0x204 + 16 * j.val) = e.lastSeen ∧ s.readWord (0x208 + 16 * j.val) = e.count ∧
      s.readWord (0x20C + 16 * j.val) = 0 :=
  h ▸ ⟨readWord_offset s (.ftId j), readWord_offset s (.ftLast j), readWord_offset s (.ftCount j),
    readWord_entryReserved s j⟩

/-- A slot that reads 0: it is at or above P_HIST_CAP, or nothing has written it since reset (R46). -/
theorem shownSlot_zero {s : State} {i : Fin 32}
    (h : s.cfg.histCap ≤ i.val ∨ (s.hist.Inv s.cfg ∧ s.hist.count.toNat ≤ i.val)) :
    s.shownSlot i = Sample.zero := by
  unfold State.shownSlot
  split
  next hlt =>
    obtain hcap | ⟨hinv, hcount⟩ := h
    · exact absurd hlt (Nat.not_lt.mpr hcap)
    · exact hinv.unwritten i hcount
  next => rfl

/-- Settles O55: the windows show `State.shownSlot` and `State.shownEntry`. -/
theorem windowsShowSlotsAndEntries : Obligations.WindowsShowSlotsAndEntries := by
  refine fun s => ⟨readWord_offset s .histStatus, readWord_offset s .ftStatus, fun i => ⟨?_, ?_⟩,
    fun j => ⟨?_, ?_⟩⟩
  · exact fun hlt => readWord_slot (if_pos hlt)
  · exact fun hz => readWord_slot (shownSlot_zero hz)
  · intro hlt
    have hvalid : s.entryValid j = true := decide_eq_true hlt
    have hread := readWord_entry (show s.shownEntry j = s.track.entries[j] from if_pos hlt)
    rwa [hvalid] at hread
  · intro hle
    have hnot : ¬ j.val < s.track.count.toNat := Nat.not_lt.mpr hle
    have hvalid : s.entryValid j = false := decide_eq_false hnot
    have hread := readWord_entry (show s.shownEntry j = TrackEntry.zero from if_neg hnot)
    rwa [hvalid] at hread

end Sys2Proof.Machine
end

section
/-! HIST_SUM and HIST_SUMSQ over the held slots (10_state.md R42, R44, R45). -/

namespace Sys2Proof.Machine

/-- The number of the slot written k + 1 appends before the next one, as a slot of the window (R42). -/
def History.heldSlot (b : Build) (h : History) (k : Nat) : Fin 32 :=
  ⟨h.heldIndex b.val (k + 1), (h.heldIndex_lt b (k + 1)).trans_le b.property.2.1.2⟩

/-- The held slots (R42). -/
def History.heldSlots (b : Build) (h : History) : Finset (Fin 32) :=
  (Finset.range h.count.toNat).image (h.heldSlot b)

/-- (HIST_HEAD - k) mod P_HIST_CAP as an integer remainder (R7, R42). -/
theorem History.heldIndex_eq_emod {c : Config} (h : History) {k : Nat} (hk : k ≤ c.histCap) :
    (h.heldIndex c k : Int) = ((h.head.toNat : Int) - k) % c.histCap := by
  unfold History.heldIndex
  rw [Int.natCast_mod, Nat.cast_sub (by omega), Nat.cast_add, add_sub_right_comm,
    Int.add_emod_right]

/-- A sum over the held slots of a quantity bounded by m is at most 32 * m. -/
theorem History.sum_heldSlots_le (b : Build) (h : History) {g : Sample → Nat} {m : Nat}
    (hg : ∀ x, g x ≤ m) : ∑ i ∈ h.heldSlots b, g h.slots[i] ≤ 32 * m := by
  have hcard : (h.heldSlots b).card ≤ 32 := Finset.card_le_univ _
  calc ∑ i ∈ h.heldSlots b, g h.slots[i] ≤ (h.heldSlots b).card * m :=
        Finset.sum_le_card_nsmul _ _ m fun i _ => hg _
    _ ≤ 32 * m := Nat.mul_le_mul_right m hcard

section
variable {b : Build} {h : History} (hi : h.Inv b.val)
include hi

/-- The held slots are those of R42's formula. -/
theorem History.mem_heldSlots (i : Fin 32) :
    i ∈ h.heldSlots b ↔ ∃ k : Nat, 1 ≤ k ∧ k ≤ h.count.toNat ∧
      (i.val : Int) = ((h.head.toNat : Int) - (k : Int)) % (b.val.histCap : Int) := by
  have hle := hi.count_le
  have hslot : ∀ k < h.count.toNat, (h.heldSlot b k).val =
      ((h.head.toNat : Int) - ((k + 1 : Nat) : Int)) % (b.val.histCap : Int) :=
    fun k hk => h.heldIndex_eq_emod (by omega)
  simp only [History.heldSlots, Finset.mem_image, Finset.mem_range]
  constructor
  · rintro ⟨k, hk, rfl⟩
    exact ⟨k + 1, by omega, hk, hslot k hk⟩
  · rintro ⟨k, hpos, hk, heq⟩
    obtain ⟨m, rfl⟩ := Nat.exists_eq_add_of_le' hpos
    exact ⟨m, hk, Fin.ext (by rw [← Int.natCast_inj, hslot m hk, heq])⟩

/-- No slot is held twice: at most P_HIST_CAP appends lie between (R42). -/
theorem History.heldSlot_injOn : Set.InjOn (h.heldSlot b) (Finset.range h.count.toNat) := by
  have hle := hi.count_le
  intro k hk l hl heq
  simp only [Finset.coe_range, Set.mem_Iio] at hk hl
  have hidx : h.heldIndex b.val (k + 1) = h.heldIndex b.val (l + 1) := congrArg Fin.val heq
  have hmod : (h.head.toNat + (b.val.histCap - 1 - k)) ≡ (h.head.toNat + (b.val.histCap - 1 - l))
      [MOD b.val.histCap] := by
    unfold History.heldIndex at hidx
    rwa [show h.head.toNat + b.val.histCap - (k + 1) = h.head.toNat + (b.val.histCap - 1 - k) by omega,
      show h.head.toNat + b.val.histCap - (l + 1) = h.head.toNat + (b.val.histCap - 1 - l) by omega]
      at hidx
  have := Nat.ModEq.eq_of_lt_of_lt (Nat.ModEq.add_left_cancel' _ hmod) (by omega) (by omega)
  omega

theorem History.card_heldSlots : (h.heldSlots b).card = h.count.toNat := by
  rw [History.heldSlots, Finset.card_image_of_injOn (History.heldSlot_injOn hi), Finset.card_range]

/-- A sum over the held samples is the sum over the held slots (R42). -/
theorem History.sum_held (g : Sample → Nat) :
    ((h.held b.val).map g).sum = ∑ i ∈ h.heldSlots b, g h.slots[i] := by
  have hslot : ∀ k, h.slot (h.heldIndex b.val (k + 1)) = h.slots[h.heldSlot b k] := fun k => by
    have hlt := (h.heldSlot b k).isLt
    exact congrArg (Option.getD · Sample.zero) (Vector.getElem?_eq_getElem hlt)
  rw [History.heldSlots, Finset.sum_image (History.heldSlot_injOn hi), History.held, List.map_map]
  simp only [Function.comp_def, hslot]
  rfl

end

/-- HIST_SUM reads S, if S fits its 21 bits (R44). -/
theorem readWord_histSum {s : State} (hS : s.hist.sumRpm s.cfg < 2 ^ 21) :
    (s.readWord 0x040).toNat = s.hist.sumRpm s.cfg := by
  calc (s.readWord 0x040).toNat = (BitVec.ofNat 21 (s.hist.sumRpm s.cfg)).toNat :=
        zero_append_toNat _
    _ = s.hist.sumRpm s.cfg := Nat.mod_eq_of_lt hS

/-- HIST_SUMSQ_HI and HIST_SUMSQ_LO read Q, if Q fits their 37 bits (R45). -/
theorem readWord_histSumsq {s : State} (hQ : s.hist.sumSqRpm s.cfg < 2 ^ 37) :
    (s.readWord 0x048).toNat * 2 ^ 32 + (s.readWord 0x044).toNat = s.hist.sumSqRpm s.cfg := by
  have hbits : s.sumSqBits.toNat = s.hist.sumSqRpm s.cfg := Nat.mod_eq_of_lt hQ
  have hhi : (s.readWord 0x048).toNat = s.hist.sumSqRpm s.cfg / 2 ^ 32 % 2 ^ 5 := by
    rw [← hbits, ← Nat.shiftRight_eq_div_pow, ← BitVec.extractLsb'_toNat]
    exact zero_append_toNat _
  have hlo : (s.readWord 0x044).toNat = s.hist.sumSqRpm s.cfg % 2 ^ 32 := by
    rw [← hbits]
    exact extractLow_toNat s.sumSqBits 32
  omega

/-- Settles O32: S and Q are sums over the held slots, and 32 terms of 16 bits, or of their squares, fit the
registers. -/
theorem sumRegistersReadTheHeldSlots : Obligations.SumRegistersReadTheHeldSlots := by
  intro s hi
  have hrpm : ∀ x : Sample, x.rpm.toNat ≤ 65535 := fun x => Nat.le_of_lt_succ x.rpm.isLt
  have hsq : ∀ x : Sample, x.rpm.toNat ^ 2 ≤ 65535 ^ 2 := fun x => Nat.pow_le_pow_left (hrpm x) 2
  have hS : s.hist.sumRpm s.cfg = ∑ i ∈ s.hist.heldSlots s.build, s.hist.slots[i].rpm.toNat :=
    History.sum_held hi _
  have hQ : s.hist.sumSqRpm s.cfg = ∑ i ∈ s.hist.heldSlots s.build, s.hist.slots[i].rpm.toNat ^ 2 := by
    simp only [sq]
    exact History.sum_held hi _
  have hSle := History.sum_heldSlots_le s.build s.hist hrpm
  have hQle := History.sum_heldSlots_le s.build s.hist hsq
  refine ⟨s.hist.heldSlots s.build, History.mem_heldSlots hi, History.card_heldSlots hi, ?_, ?_⟩
  · rw [readWord_histSum (by omega), hS]
  · rw [readWord_histSumsq (by omega), hQ]

end Sys2Proof.Machine
end

section
/-! Reads have no side effect (20_memory.md R75). -/

namespace Sys2Proof.Machine

/-- A register's value depends on neither the answers nor the inputs nor the count of landed accesses, and on
the busy state only through BUSY (R51, R75). -/
theorem readWord_host (s : State) {p : Option Pending} (hp : p.isSome = s.pending.isSome)
    (ins : List Input) (ans : List Word) (off : Nat) :
    ({ s with pending := p, inputs := ins, answers := ans } : State).readWord off = s.readWord off := by
  unfold State.readWord
  cases regAt off with
  | none => rfl
  | some r =>
    cases r with
    | status => exact congrArg (statusWord · s.status) hp
    | _ => rfl

/-- A supported read returns the word at its offset (R71). -/
theorem busRead_supported {off size : Nat} (h : supported off size = true) (s : State) :
    s.busRead off size = s.readWord off := if_pos h

/-- Settles O51: the read is one step, and no register depends on what that step leaves behind. -/
theorem readsHaveNoSideEffect : Obligations.ReadsHaveNoSideEffect := by
  refine ⟨fun s off rest hmod hlt hi => ?_, readWord_status_busy⟩
  have hread := busRead_supported ((supported_iff off 4).mpr ⟨rfl, hmod, hlt⟩) s
  constructor
  · intro hp
    exact ⟨_, hread ▸ step_read_idle hp hi, rfl, readWord_host s rfl _ _⟩
  · intro p hp hl
    exact ⟨_, hread ▸ step_read_busy hp hl hi, rfl, readWord_host s (by rw [hp]; rfl) _ _⟩

end Sys2Proof.Machine
end

section
/-! Offsets and bits that no register holds, and the writes that reach no register (20_memory.md R73,
R74). -/

namespace Sys2Proof.Machine

/-- The map of R25 names no offset in the gaps of the window (R74). -/
theorem regAt_unnamed {off : Nat} (h : (0x050 ≤ off ∧ off < 0x100) ∨ (0x300 ≤ off ∧ off < 0x1000) ∨
    (0x200 ≤ off ∧ off < 0x300 ∧ off % 16 = 12)) : regAt off = none := by
  cases hr : regAt off with
  | none => rfl
  | some r =>
    have hoff := regAt_some hr
    cases r <;> simp only [Reg.offset] at hoff <;> omega

/-- A reserved field at the top of a register reads 0 (R74). -/
theorem reserved_top_and {k n : Nat} (x : BitVec n) :
    (0#k ++ x) &&& (BitVec.allOnes k ++ 0#n) = 0 := by
  simp [BitVec.and_append]

/-- SNAP_MISC reads 0 at [31:18] and [15:11] (R35). -/
theorem readWord_snapMisc_reserved (s : State) : s.readWord 0x028 &&& 0xFFFCF800 = 0 := by
  change (0#14 ++ BitVec.ofBool s.snap.faultStatus ++ BitVec.ofBool s.snap.engineStatus ++ 0#5 ++
      s.snap.gear ++ s.snap.throttle) &&&
    (BitVec.allOnes 14 ++ 0#1 ++ 0#1 ++ BitVec.allOnes 5 ++ 0#3 ++ 0#8) = 0
  simp only [BitVec.and_append, BitVec.zero_and, BitVec.and_zero]
  rfl

/-- ANOM_STATUS reads 0 at [31:27], [15:11], [7] and [3:1] (R37). -/
theorem readWord_anomStatus_reserved (s : State) : s.readWord 0x030 &&& 0xF800F88E = 0 := by
  change (0#5 ++ s.anomaly.canId ++ 0#5 ++ s.anomaly.severity ++ 0#1 ++ s.anomaly.type ++ 0#3 ++
      BitVec.ofBool s.anomaly.has) &&&
    (BitVec.allOnes 5 ++ 0#11 ++ BitVec.allOnes 5 ++ 0#3 ++ BitVec.allOnes 1 ++ 0#3 ++
      BitVec.allOnes 3 ++ 0#1) = 0
  simp only [BitVec.and_append, BitVec.zero_and, BitVec.and_zero]
  rfl

/-- HIST_STATUS reads 0 at [31:13] and [7:6] (R43). -/
theorem readWord_histStatus_reserved (s : State) : s.readWord 0x03C &&& 0xFFFFE0C0 = 0 := by
  change (0#19 ++ s.hist.head ++ 0#2 ++ s.hist.count) &&&
    (BitVec.allOnes 19 ++ 0#5 ++ BitVec.allOnes 2 ++ 0#6) = 0
  simp only [BitVec.and_append, BitVec.zero_and, BitVec.and_zero]
  rfl

/-- STATUS reads 0 above its four bits (R32). -/
theorem readWord_status_reserved (s : State) : s.readWord 0x01C &&& 0xFFFFFFF0 = 0 := by
  change (0#28 ++ BitVec.ofBool s.status.extInvalid ++ BitVec.ofBool s.status.overrun ++
      BitVec.ofBool s.status.cmdIllegal ++ BitVec.ofBool s.busy) &&&
    (BitVec.allOnes 28 ++ 0#1 ++ 0#1 ++ 0#1 ++ 0#1) = 0
  simp only [BitVec.and_append, BitVec.zero_and, BitVec.and_zero]
  rfl

/-- BASELINE reads 0 above VALID (R39). -/
theorem readWord_baseline_reserved (s : State) : s.readWord 0x038 &&& 0xFFFE0000 = 0 := by
  change (0#15 ++ BitVec.ofBool s.baseline.valid ++ s.baseline.prevRpm) &&&
    (BitVec.allOnes 15 ++ 0#1 ++ 0#16) = 0
  simp only [BitVec.and_append, BitVec.zero_and, BitVec.and_zero]
  rfl

/-- An idle write from 0x020 on reaches no writable register (R77). -/
theorem writeIdle_of_le {off : Nat} (h : 0x020 ≤ off) (s : State) (v : Word) : s.writeIdle off v = s := by
  have hne : ∀ r : Reg, r.offset < 0x020 → regAt off ≠ some r := by
    intro r hlt hr
    have hoff := regAt_some hr
    omega
  unfold State.writeIdle
  split
  case h_9 => rfl
  all_goals exact absurd ‹_› (hne _ (by decide))

/-- An unsupported read returns 0 (R73). -/
theorem busRead_unsupported {off size : Nat} (h : supported off size = false) (s : State) :
    s.busRead off size = 0 := by
  simp only [State.busRead, h, Bool.false_eq_true, if_false]

/-- Settles O54: unnamed offsets and reserved bits, idle writes from 0x020 on, and the unsupported accesses,
idle and busy. -/
theorem ignoredAccessesDoNothing : Obligations.IgnoredAccessesDoNothing := by
  refine ⟨fun s off _ h => ?_, fun s => ?_, fun s off v rest hp hmod hge hlt hi => ?_,
    fun s off size v rest hns => ?_⟩
  · simp only [State.readWord, regAt_unnamed h]
  · exact ⟨reserved_top_and s.frame.id, reserved_top_and s.frame.dlc, readWord_status_reserved s,
      readWord_snapMisc_reserved s, readWord_anomStatus_reserved s, readWord_baseline_reserved s,
      readWord_histStatus_reserved s, reserved_top_and (BitVec.ofNat 21 (s.hist.sumRpm s.cfg)),
      reserved_top_and (s.sumSqBits.extractLsb' 32 5), reserved_top_and s.track.count⟩
  · have hs : supported off 4 = true := (supported_iff off 4).mpr ⟨rfl, hmod, hlt⟩
    rw [step_write_idle hp hs hi, writeIdle_of_le hge]
  · have hs : supported off size = false :=
      Bool.eq_false_iff.mpr (mt (supported_iff off size).mp hns)
    have hread := busRead_unsupported hs s
    exact ⟨fun hp => ⟨step_write_unsupported_idle hp hs, fun hi => hread ▸ step_read_idle hp hi⟩,
      fun p hp hl => ⟨step_write_unsupported_busy hp hl hs, fun hi => hread ▸ step_read_busy hp hl hi⟩⟩

end Sys2Proof.Machine
end

section
/-! The bytes of the window (20_memory.md R72). -/

namespace Sys2Proof.Machine

/-- The byte k places into a register is its lane k (R72). -/
theorem windowByte_add (s : State) {off k : Nat} (hoff : off % 4 = 0) (hk : k < 4) :
    s.windowByte (off + k) = laneByte (s.readWord off) k := by
  have hreg : 4 * ((off + k) / 4) = off := by omega
  have hlane : (off + k) % 4 = k := by omega
  rw [State.windowByte, hreg, hlane]

/-- A byte lane as a number. -/
theorem laneByte_toNat (v : Word) (k : Nat) : (laneByte v k).toNat = v.toNat / 2 ^ (8 * k) % 256 := by
  rw [laneByte, BitVec.extractLsb'_toNat, Nat.shiftRight_eq_div_pow]

/-- Frame byte i is a lane of FRAME_DATA0 for i < 4 and of FRAME_DATA1 from there on (R28, R72). -/
theorem windowByte_frameByte (s : State) {i : Nat} (hi : i < 8) :
    s.windowByte (0x008 + i) = s.frame.byte i := by
  unfold Frame.byte
  split
  next hlow =>
    rw [windowByte_add s (by decide) hlow]
    rfl
  next hhigh =>
    have hoff : 0x008 + i = 0x00C + (i - 4) := by omega
    rw [hoff, windowByte_add s (by decide) (by omega)]
    rfl

/-- Settles O56: lanes as numbers, the frame's bytes, and the two data words in a row. -/
theorem theWindowIsLittleEndian : Obligations.TheWindowIsLittleEndian := by
  refine fun s => ⟨fun off k hoff hk => ?_, fun i hi => windowByte_frameByte s hi, rfl⟩
  rw [windowByte_add s hoff hk, laneByte_toNat]

end Sys2Proof.Machine
end

section
/-! A command and the WAIT that follows it (30_encoding.md R101, R102). -/

namespace Sys2Proof

/-- The three fields of an extractor's canonical word (R91). -/
theorem extract_word_fields {start len op : Nat} (hs : start < 64) (hl : len < 64) (ho : op < 16) :
    (opField (BitVec.ofNat 32 (len * 1024 + start * 16 + op))).toNat = op ∧
      fstartField (BitVec.ofNat 32 (len * 1024 + start * 16 + op)) = start ∧
      flenField (BitVec.ofNat 32 (len * 1024 + start * 16 + op)) = len := by
  rw [opField_toNat, fstartField_eq, flenField_eq, extract_word_toNat hs hl ho]
  omega

/-- A well-formed instruction is what its canonical word decodes to (R91, R101). -/
theorem decode_encode {i : Instr} (h : i.wellFormed = true) : decode (encode i) = i := by
  cases i with
  | extractU start len =>
    simp only [Instr.wellFormed, Bool.and_eq_true, decide_eq_true_eq] at h
    obtain ⟨hs, hl⟩ := h
    obtain ⟨hop, hstart, hlen⟩ := extract_word_fields hs hl (op := 8) (by decide)
    simp only [decode, encode, hop, hstart, hlen]
  | extractS start len =>
    simp only [Instr.wellFormed, Bool.and_eq_true, decide_eq_true_eq] at h
    obtain ⟨hs, hl⟩ := h
    obtain ⟨hop, hstart, hlen⟩ := extract_word_fields hs hl (op := 9) (by decide)
    simp only [decode, encode, hop, hstart, hlen]
  | _ => rfl

end Sys2Proof

namespace Sys2Proof.Machine

/-- What STATUS reads once a command is pending: the idle word with BUSY set (R32, R51). -/
theorem readWord_status_pending {s : State} (hp : s.pending = none) (p : Pending) (ins : List Input) :
    ({ s with pending := some p, inputs := ins } : State).readWord 0x01C = s.readWord 0x01C ||| 1 := by
  have hidle : s.readWord 0x01C = statusWord false s.status := by
    rw [show s.readWord 0x01C = statusWord s.busy s.status from rfl, State.busy, hp]
    rfl
  rw [hidle, ← statusWord_true]
  rfl

/-- k supported reads in the busy window all return the same word, and change nothing but the count of
landed accesses and the host's side (R75, R102). -/
theorem run_busy_reads {off : Nat} (hs : supported off 4 = true) (n k : Nat) {s : State} {p : Pending}
    {rest : List Input} (hp : s.pending = some p) (hl : p.landed + k ≤ s.cfg.cmdLatency)
    (hi : s.inputs = List.replicate k (rdAt off) ++ rest) :
    Sys2Proof.core.run (n + k) s = Sys2Proof.core.run n { s with
      inputs := rest
      answers := List.replicate k (s.readWord off) ++ s.answers
      pending := some { p with landed := p.landed + k } } := by
  induction k generalizing s p with
  | zero =>
    obtain rfl : s.inputs = rest := hi
    simp only [Nat.add_zero, List.replicate_zero, List.nil_append, ← hp]
  | succ k ih =>
    have hread : s.inputs = .access (.read off 4) :: (List.replicate k (rdAt off) ++ rest) := hi
    have hstep := step_read_busy hp (by omega) hread
    rw [busRead_supported hs] at hstep
    have hword := readWord_host s (p := some { p with landed := p.landed + 1 }) (by rw [hp]; rfl)
      (List.replicate k (rdAt off) ++ rest) (s.readWord off :: s.answers) off
    have hlanded : p.landed + 1 + k = p.landed + (k + 1) := by omega
    have hanswers : List.replicate k (s.readWord off) ++ s.readWord off :: s.answers =
        List.replicate (k + 1) (s.readWord off) ++ s.answers := by
      rw [List.replicate_succ', List.append_assoc, List.singleton_append]
    rw [← Nat.add_assoc, run_succ hstep, ih rfl (hlanded ▸ hl) rfl, hword, hanswers, hlanded]

/-- The end of a WAIT: the pending command completes as from the idle state, and one more poll reads STATUS
(R102, R231). -/
theorem run_wait_end {i : Instr} (hwf : i.wellFormed = true) {s t : State} {rest : List Input}
    (ht : exec i { s with inputs := rest } = .next t) (hdone : Completed { s with inputs := rest } t)
    (landed : Nat) (ans : List Word) :
    Sys2Proof.core.run 2 { s with
        pending := some ⟨encode i, landed⟩
        inputs := .latencyElapsed :: rdAt 0x01C :: rest
        answers := ans } =
      .next { t with answers := t.readWord 0x01C :: ans } := by
  have hcomplete : step { s with
      pending := some ⟨encode i, landed⟩
      inputs := .latencyElapsed :: rdAt 0x01C :: rest
      answers := ans } = .next { t with inputs := rdAt 0x01C :: rest, answers := ans } := by
    rw [step_latencyElapsed rfl rfl, decode_encode hwf]
    exact exec_host i ht _ _ _
  have hpoll := step_read_idle (s := { t with inputs := rdAt 0x01C :: rest, answers := ans })
    hdone.pending rfl
  have hinputs : t.inputs = rest := hdone.inputs
  rw [busRead_supported (by decide), readWord_host t rfl, ← hinputs] at hpoll
  rw [run_succ hcomplete, ← hinputs, run_succ hpoll]
  rfl

/-- Settles O58: the CMD write, the busy polls and the end of the WAIT, one after the other. -/
theorem commandThenWaitRunsTheCommand : Obligations.CommandThenWaitRunsTheCommand := by
  intro i s k rest hwf hp hk hi
  obtain ⟨t, ht, hdone⟩ := exec_completes i { s with inputs := rest }
  have hidle : (t.readWord 0x01C).getLsbD 0 = false := by
    rw [readWord_status_busy, State.busy, hdone.pending]
    rfl
  refine ⟨t, ht, hidle, ?_⟩
  simp only [expand, List.cons_append, List.append_assoc, List.nil_append] at hi
  have hwrite : step s = .next { s with
      pending := some ⟨encode i, 0⟩
      inputs := List.replicate k (rdAt 0x01C) ++ .latencyElapsed :: rdAt 0x01C :: rest } :=
    step_write_idle hp (by decide) hi
  have hwithin : 0 + k ≤ s.cfg.cmdLatency := (Nat.zero_add k).symm ▸ hk
  rw [show k + 3 = 2 + k + 1 by omega, run_succ hwrite, run_busy_reads (by decide) 2 k rfl hwithin rfl,
    readWord_status_pending hp]
  exact run_wait_end hwf ht hdone (0 + k) _

end Sys2Proof.Machine
end

section
/-! What a word's used bits say of the command it stands for (30_encoding.md R91-R97, R101). -/

namespace Sys2Proof

/-- Settles O6: decoding inverts encoding, and decoding a word's bytes is decoding the word. -/
theorem decodeOfEncodeIsTheInstruction : Obligations.DecodeOfEncodeIsTheInstruction := fun i hwf =>
  ⟨decode_encode hwf, by rw [decodeBytes_bytesOfWord, decode_encode hwf]⟩

/-- The operands of a command are the fields of the word c; a command without operands asks nothing of it
(R93). -/
def Instr.operandsAt (c : Word) : Instr → Prop
  | .extractU start len => fstartField c = start ∧ flenField c = len
  | .extractS start len => fstartField c = start ∧ flenField c = len
  | _ => True

/-- The decoded command is the one of the word's OP (R92). -/
theorem decode_opcode (c : Word) : (decode c).opcode = opField c := by
  apply BitVec.eq_of_toNat_eq
  unfold decode
  split
  case h_16 =>
    have hlt : (opField c).toNat < 16 := (opField c).isLt
    change 15 = (opField c).toNat
    simp only [imp_false] at *
    omega
  all_goals exact Eq.symm ‹_›

/-- The decoded command's operands are the word's fields (R93). -/
theorem decode_operandsAt (c : Word) : (decode c).operandsAt c := by
  unfold decode
  split
  case h_9 | h_10 => exact ⟨rfl, rfl⟩
  all_goals trivial

/-- OP and, for an extract, the two fields determine the command (R92, R93). -/
theorem decode_eq_iff (c : Word) (i : Instr) : decode c = i ↔ opField c = i.opcode ∧ i.operandsAt c := by
  constructor
  · rintro rfl
    exact ⟨(decode_opcode c).symm, decode_operandsAt c⟩
  · rintro ⟨hop, hargs⟩
    unfold decode
    rw [hop]
    cases i with
    | extractU start len | extractS start len =>
      obtain ⟨rfl, rfl⟩ := hargs
      rfl
    | _ => rfl

/-- A command whose operands are fields of some word is well-formed (R93, R97). -/
theorem Instr.wellFormed_of_operandsAt {i : Instr} {c : Word} (h : i.operandsAt c) :
    i.wellFormed = true := by
  cases i with
  | extractU start len | extractS start len =>
    obtain ⟨rfl, rfl⟩ := h
    simp only [Instr.wellFormed, fstartField_lt, flenField_lt, decide_true, Bool.and_self]
  | _ => rfl

/-- With operands from the word d, a command has them from c too when it is no extract or the fields of c
and d agree (R95). -/
theorem Instr.operandsAt_iff {i : Instr} {d : Word} (h : i.operandsAt d) (c : Word) :
    i.operandsAt c ↔ (i.opcode = 0x8 ∨ i.opcode = 0x9 →
      fstartField c = fstartField d ∧ flenField c = flenField d) := by
  cases i with
  | extractU start len | extractS start len =>
    obtain ⟨rfl, rfl⟩ := h
    simp [Instr.operandsAt, Instr.opcode]
  | _ => simp [Instr.operandsAt, Instr.opcode]

/-- The low nibble of a word is its OP, as words (R92). -/
theorem and_low_nibble_eq_iff (c : Word) (op : BitVec 4) :
    c &&& 0xF = op.setWidth 32 ↔ opField c = op := by
  rw [← BitVec.toNat_inj, ← BitVec.toNat_inj, and_low_nibble_toNat, opField_toNat,
    BitVec.toNat_setWidth_of_le (by decide)]

/-- The low nibbles of two words agree when their OPs do. -/
theorem and_low_nibble_eq_and_low_nibble_iff (c d : Word) :
    c &&& 0xF = d &&& 0xF ↔ opField c = opField d := by
  rw [(and_low_nibble_eq_iff d _).mpr rfl, and_low_nibble_eq_iff]

/-- The low half of a word is its OP and its two fields (R91). -/
theorem and_low_half_eq_iff (c d : Word) :
    c &&& 0xFFFF = d &&& 0xFFFF ↔
      opField c = opField d ∧ fstartField c = fstartField d ∧ flenField c = flenField d := by
  have hlow (v : Word) : (v &&& 0xFFFF).toNat = v.toNat % 65536 :=
    (BitVec.toNat_and v 0xFFFF).trans (Nat.and_two_pow_sub_one_eq_mod v.toNat 16)
  rw [← BitVec.toNat_inj, ← BitVec.toNat_inj, hlow, hlow]
  simp only [opField_toNat, fstartField_eq, flenField_eq]
  omega

/-- A word with a row's opcode in its low nibble and the row's operands in its fields is that row's command
(R92). -/
theorem decode_of_low_nibble {c : Word} (i : Instr) (hargs : i.operandsAt c)
    (h : c &&& 0xF = i.opcode.setWidth 32) : decode c = i :=
  (decode_eq_iff c i).mpr ⟨(and_low_nibble_eq_iff c i.opcode).mp h, hargs⟩

/-- Settles O7: each row's command has the row's opcode, and an extract's operands are the word's fields as
numbers. -/
theorem opcodeMapSelectsTheRow : Obligations.OpcodeMapSelectsTheRow := by
  intro c
  have hfields : fstartField c = c.toNat / 16 % 64 ∧ flenField c = c.toNat / 1024 % 64 :=
    ⟨fstartField_eq c, flenField_eq c⟩
  exact ⟨decode_of_low_nibble .nop trivial, decode_of_low_nibble .frameCycle trivial,
    decode_of_low_nibble .decode trivial, decode_of_low_nibble .getState trivial,
    decode_of_low_nibble .decoderReset trivial, decode_of_low_nibble .trackObserve trivial,
    decode_of_low_nibble .histRecord trivial, decode_of_low_nibble .histEvaluate trivial,
    decode_of_low_nibble (.extractU _ _) hfields, decode_of_low_nibble (.extractS _ _) hfields,
    decode_of_low_nibble .engineEval trivial, decode_of_low_nibble .reservedB trivial,
    decode_of_low_nibble .reservedC trivial, decode_of_low_nibble .reservedD trivial,
    decode_of_low_nibble .reservedE trivial, decode_of_low_nibble .softReset trivial⟩

/-- Settles O8: two decoded commands are equal when they agree on OP and, for an extract, on the two fields,
and those three make up the low half of the word. -/
theorem decodeReadsExactlyTheUsedBits : Obligations.DecodeReadsExactlyTheUsedBits := by
  refine ⟨fun c d => ?_, fun c => Instr.wellFormed_of_operandsAt (decode_operandsAt c)⟩
  calc decode c = decode d
    _ ↔ opField c = (decode d).opcode ∧ (decode d).operandsAt c := decode_eq_iff c (decode d)
    _ ↔ opField c = opField d ∧ (opField d = 0x8 ∨ opField d = 0x9 →
          fstartField c = fstartField d ∧ flenField c = flenField d) := by
      rw [Instr.operandsAt_iff (decode_operandsAt d), decode_opcode]
    _ ↔ opField c = opField d ∧ (opField c = 0x8 ∨ opField c = 0x9 → c &&& 0xFFFF = d &&& 0xFFFF) :=
      and_congr_right fun hop => by rw [and_low_half_eq_iff, hop, eq_self, true_and]
    _ ↔ _ := (and_low_nibble_eq_and_low_nibble_iff c d).symm.and
      (imp_congr_left ((and_low_nibble_eq_iff c 0x8).or (and_low_nibble_eq_iff c 0x9)).symm)

/-- Settles O5: eleven closed words. -/
theorem writtenWordsDecode : Obligations.WrittenWordsDecode := by
  unfold Obligations.WrittenWordsDecode
  decide

end Sys2Proof
end

section
/-! The FRAME and ARG lines of a host program (30_encoding.md R103). -/

namespace Sys2Proof.Machine

/-- Each lane of a word put together from four bytes is its byte (R72): the bytes below it are passed over
one by one. -/
theorem laneByte_wordOfBytes (b : Nat → Byte) {k : Nat} (hk : k < 4) :
    laneByte (wordOfBytes (b 0) (b 1) (b 2) (b 3)) k = b k :=
  match k, hk with
  | 0, _ => BitVec.extractLsb'_append_eq_right
  | 1, _ => (BitVec.extractLsb'_append_eq_of_le (by decide)).trans BitVec.extractLsb'_append_eq_right
  | 2, _ =>
    (BitVec.extractLsb'_append_eq_of_le (by decide)).trans <|
      (BitVec.extractLsb'_append_eq_of_le (by decide)).trans BitVec.extractLsb'_append_eq_right
  | 3, _ =>
    (BitVec.extractLsb'_append_eq_of_le (by decide)).trans <|
      (BitVec.extractLsb'_append_eq_of_le (by decide)).trans BitVec.extractLsb'_append_eq_left

/-- Four bytes of a FRAME line's list, lane by lane (R103). -/
theorem laneByte_dataWord (bytes : List Byte) (i : Nat) {k : Nat} (hk : k < 4) :
    laneByte (dataWord bytes i) k = listByte bytes (i + k) :=
  laneByte_wordOfBytes (fun k => listByte bytes (i + k)) hk

/-- The frame that a FRAME line stages (R103). -/
def stagedFrame (id dlc : Word) (bytes : List Byte) (ts : Word) : Frame :=
  ⟨id.extractLsb' 0 11, dlc.extractLsb' 0 4, dataWord bytes 0, dataWord bytes 4, ts⟩

/-- Its bytes are those of the list, the omitted ones 0 (R28, R103). -/
theorem stagedFrame_byte (id dlc : Word) (bytes : List Byte) (ts : Word) {i : Nat} (hi : i < 8) :
    (stagedFrame id dlc bytes ts).byte i = listByte bytes i := by
  unfold Frame.byte
  split
  next hlow => exact (laneByte_dataWord bytes 0 hlow).trans (by rw [Nat.zero_add])
  next hhigh =>
    have hlane := laneByte_dataWord bytes 4 (k := i - 4) (by omega)
    rwa [Nat.add_sub_cancel' (by omega : 4 ≤ i)] at hlane

/-- A write of an idle block at the head of a run (R77). -/
theorem run_write_idle {s : State} {off : Nat} {v : Word} {rest : List Input} (hp : s.pending = none)
    (hs : supported off 4 = true) (hi : s.inputs = wrAt off v :: rest) (n : Nat) :
    Sys2Proof.core.run (n + 1) s = Sys2Proof.core.run n ({ s with inputs := rest }.writeIdle off v) :=
  run_succ (step_write_idle hp hs hi) n

/-- A write of an idle block that leaves g staged where f was, at the head of a run. -/
theorem run_write_frame {s : State} {f g : Frame} {off : Nat} {v : Word} {rest : List Input}
    (hp : s.pending = none) (hs : supported off 4 = true)
    (hw : ({ s with frame := f, inputs := rest } : State).writeIdle off v =
      { s with frame := g, inputs := rest }) (n : Nat) :
    Sys2Proof.core.run (n + 1) { s with frame := f, inputs := wrAt off v :: rest } =
      Sys2Proof.core.run n { s with frame := g, inputs := rest } :=
  hw ▸ run_write_idle (s := { s with frame := f, inputs := wrAt off v :: rest }) hp hs rfl n

/-- The five writes of a FRAME line, one after the other (R103). -/
theorem run_frame_line {s : State} {id dlc ts : Word} {bytes : List Byte} {rest : List Input}
    (hp : s.pending = none) (hi : s.inputs = expand 0 (.frame id dlc bytes ts) ++ rest) :
    Sys2Proof.core.run 5 s =
      .next { s with frame := stagedFrame id dlc bytes ts, inputs := rest } := by
  calc Sys2Proof.core.run 5 s
    _ = Sys2Proof.core.run 5 { s with inputs := expand 0 (.frame id dlc bytes ts) ++ rest } := by
      rw [← hi]
    _ = Sys2Proof.core.run 4 _ := run_write_frame hp (by decide) rfl 4
    _ = Sys2Proof.core.run 3 _ := run_write_frame hp (by decide) rfl 3
    _ = Sys2Proof.core.run 2 _ := run_write_frame hp (by decide) rfl 2
    _ = Sys2Proof.core.run 1 _ := run_write_frame hp (by decide) rfl 1
    _ = Sys2Proof.core.run 0 _ := run_write_frame hp (by decide) rfl 0

/-- Settles O59: a FRAME line's five writes leave `stagedFrame`, an ARG line's one write leaves ARG0. -/
theorem frameAndArgLinesStageTheInputs : Obligations.FrameAndArgLinesStageTheInputs := by
  refine fun s rest hp => ⟨fun id dlc ts bytes _ hi => ?_, fun rpm speed hi => ?_⟩
  · exact ⟨stagedFrame id dlc bytes ts, rfl, rfl, rfl, fun i hlt => stagedFrame_byte id dlc bytes ts hlt,
      run_frame_line hp hi⟩
  · exact run_write_idle hp (by decide) hi 0

end Sys2Proof.Machine
end

section
/-! DECODE: the five routines, and the frames that no routine takes (40_decoder.md R110-R116). -/

namespace Sys2Proof.Machine

/-- When a routine does not apply: the frame is malformed, or its DLC too short (R110, R111). -/
theorem Routine.applies_eq_false_iff (c : Config) (f : Frame) (r : Routine) :
    r.applies c f = false ↔ 8 < f.dlc.toNat ∨ f.dlc.toNat < r.offset c + r.width := by
  rw [← Bool.not_eq_true, r.applies_iff]
  omega

/-- Decode of a frame whose routine applies (R110, R111). -/
theorem decodeFrame_of_applies {c : Config} {f : Frame} {r : Routine} (hr : routineOf c f.id = some r)
    (happ : r.applies c f = true) (vs : VehicleState) :
    decodeFrame c f vs = ⟨{ r.write f (r.offset c) vs with lastUpdate := f.ts }, true, true, false⟩ := by
  have hmal : f.malformed = false := f.malformed_eq_false.mpr ((r.applies_iff c f).mp happ).1
  simp only [decodeFrame, hr, happ, hmal, if_true]

/-- Decode of a recognised frame whose routine does not apply (R110, R111). -/
theorem decodeFrame_of_not_applies {c : Config} {f : Frame} {r : Routine} {malformed : Bool}
    (hr : routineOf c f.id = some r) (happ : r.applies c f = false) (hmal : f.malformed = malformed)
    (vs : VehicleState) : decodeFrame c f vs = ⟨vs, false, true, malformed⟩ := by
  simp only [decodeFrame, hr, happ, hmal, Bool.false_eq_true, if_false]

/-- Decode of an unknown ID (R110). -/
theorem decodeFrame_of_unknown {c : Config} {f : Frame} {malformed : Bool}
    (hr : routineOf c f.id = none) (hmal : f.malformed = malformed) (vs : VehicleState) :
    decodeFrame c f vs = ⟨vs, false, false, malformed⟩ := by
  simp only [decodeFrame, hr, hmal]

/-- DECODE writes what Decode answers: the new VS, and the three bits in RESULT (R110). -/
theorem exec_decode_of_decodeFrame {s : State} {v : VehicleState} {applied recognised malformed : Bool}
    (h : decodeFrame s.cfg s.frame s.vs = ⟨v, applied, recognised, malformed⟩) :
    exec .decode s =
      .next ({ s with vs := v }.finish (decodeResult (decodeBits malformed recognised applied))) := by
  simp only [exec, execDecode, h]
  rfl

section
variable {s : State} {r : Routine}

/-- A word with DECODE's opcode, on the frame that selects the routine r, with a DLC that covers r's field
(R111). -/
theorem exec_decode_covered {c : Word} (hc : c &&& 0xF = 0x2) (hid : s.frame.id = r.id s.cfg)
    (hdlc : s.frame.dlc.toNat ≤ 8) (hfield : r.offset s.cfg + r.width ≤ s.frame.dlc.toNat) :
    exec (decode c) s = .next ({ s with
      vs := { r.write s.frame (r.offset s.cfg) s.vs with lastUpdate := s.frame.ts } }.finish 3) := by
  rw [decode_of_low_nibble .decode trivial hc]
  exact exec_decode_of_decodeFrame (decodeFrame_of_applies (hid ▸ routineOf_id s.build r)
    ((r.applies_iff s.cfg s.frame).mpr ⟨hdlc, hfield⟩) s.vs)

/-- A word with DECODE's opcode, on the frame that selects the routine r, with a DLC too short for r's field
(R111). -/
theorem exec_decode_short {c : Word} (hc : c &&& 0xF = 0x2) (hid : s.frame.id = r.id s.cfg)
    (hdlc : s.frame.dlc.toNat ≤ 8) (hshort : s.frame.dlc.toNat < r.offset s.cfg + r.width) :
    exec (decode c) s = .next (s.finish 2) := by
  rw [decode_of_low_nibble .decode trivial hc]
  exact exec_decode_of_decodeFrame (decodeFrame_of_not_applies (hid ▸ routineOf_id s.build r)
    ((r.applies_eq_false_iff s.cfg s.frame).mpr (.inr hshort)) (s.frame.malformed_eq_false.mpr hdlc) s.vs)

end

/-- Bit 0 of a byte as a number. -/
theorem byte_bit_zero (b : Byte) : b.getLsbD 0 = decide (b.toNat % 2 = 1) :=
  Nat.testBit_zero b.toNat

/-- A part of a 2-byte value fits 16 bits (R112, R113). -/
theorem raw16_div_toNat (f : Frame) (o k : Nat) :
    (BitVec.ofNat 16 (f.raw16 o / k)).toNat = f.raw16 o / k :=
  Nat.mod_eq_of_lt ((Nat.div_le_self _ k).trans_lt (raw16_lt f o))

/-- Settles O14: a tenth of a 2-byte value. -/
theorem speedRoutineWritesTenths : Obligations.SpeedRoutineWritesTenths := fun _ s hc hid hdlc =>
  ⟨fun hfield => ⟨_, raw16_div_toNat s.frame s.cfg.offSpeed 10,
    exec_decode_covered (r := .speed) hc hid hdlc hfield⟩, exec_decode_short (r := .speed) hc hid hdlc⟩

/-- Settles O15: a quarter of a 2-byte value. -/
theorem rpmRoutineWritesQuarters : Obligations.RpmRoutineWritesQuarters := fun _ s hc hid hdlc =>
  ⟨fun hfield => ⟨_, raw16_div_toNat s.frame s.cfg.offRpm 4,
    exec_decode_covered (r := .rpm) hc hid hdlc hfield⟩, exec_decode_short (r := .rpm) hc hid hdlc⟩

/-- Settles O16: a byte is at most 255, so its percentage is at most 100 and fits the throttle. -/
theorem throttleRoutineScalesToPercent : Obligations.ThrottleRoutineScalesToPercent := by
  refine fun c s hc hid hdlc => ⟨fun hfield => ?_, exec_decode_short (r := .throttle) hc hid hdlc⟩
  have hbyte := (s.frame.byte s.cfg.offThrottle).isLt
  have hvalue : (BitVec.ofNat 8 ((s.frame.byte s.cfg.offThrottle).toNat * 100 / 255)).toNat =
      (s.frame.byte s.cfg.offThrottle).toNat * 100 / 255 := Nat.mod_eq_of_lt (by omega)
  exact ⟨_, hvalue, by omega, exec_decode_covered (r := .throttle) hc hid hdlc hfield⟩

/-- Settles O17: bits 3:1 of the byte as a number, and its bit 0. -/
theorem engineRoutineWritesStatusAndGear : Obligations.EngineRoutineWritesStatusAndGear := by
  refine fun c s hc hid hdlc => ⟨fun hfield => ?_, exec_decode_short (r := .engine) hc hid hdlc⟩
  have hgear : ((s.frame.byte s.cfg.offEngine).extractLsb' 1 3).toNat =
      (s.frame.byte s.cfg.offEngine).toNat / 2 % 8 := by
    rw [BitVec.extractLsb'_toNat, Nat.shiftRight_eq_div_pow]
  exact ⟨_, hgear, byte_bit_zero _ ▸ exec_decode_covered (r := .engine) hc hid hdlc hfield⟩

/-- Settles O18: bit 0 of the byte. -/
theorem faultRoutineWritesTheFaultBit : Obligations.FaultRoutineWritesTheFaultBit := fun _ _ hc hid hdlc =>
  ⟨fun hfield => byte_bit_zero _ ▸ exec_decode_covered (r := .fault) hc hid hdlc hfield,
    exec_decode_short (r := .fault) hc hid hdlc⟩

/-- Settles O19: an unknown ID has no routine, and no routine applies to a malformed frame. -/
theorem decodeSkipsUnknownAndMalformedFrames : Obligations.DecodeSkipsUnknownAndMalformedFrames := by
  intro c s hc
  rw [decode_of_low_nibble .decode trivial hc]
  have hnone (hid : s.frame.id ∉ s.cfg.knownIds) : routineOf s.cfg s.frame.id = none :=
    Option.not_isSome_iff_eq_none.mp (mt (routineOf_isSome_iff _ _).mp hid)
  refine ⟨fun hid hdlc => ?_, fun hid hdlc => ?_, fun hid hdlc => ?_⟩
  · exact exec_decode_of_decodeFrame
      (decodeFrame_of_unknown (hnone hid) (s.frame.malformed_eq_false.mpr hdlc) s.vs)
  · exact exec_decode_of_decodeFrame
      (decodeFrame_of_unknown (hnone hid) (s.frame.malformed_iff.mpr hdlc) s.vs)
  · obtain ⟨r, hr⟩ := Option.isSome_iff_exists.mp ((routineOf_isSome_iff _ _).mpr hid)
    have happ := (r.applies_eq_false_iff s.cfg s.frame).mpr (.inl hdlc)
    exact exec_decode_of_decodeFrame
      (decodeFrame_of_not_applies hr happ (s.frame.malformed_iff.mpr hdlc) s.vs)

/-- A routine does not look at the fields it writes, nor at last_update: after itself it writes the same
again (R112-R116). -/
theorem Routine.write_write (r : Routine) (f : Frame) (o : Nat) (vs : VehicleState) (ts : Time) :
    ({ r.write f o { r.write f o vs with lastUpdate := ts } with lastUpdate := ts } : VehicleState) =
      { r.write f o vs with lastUpdate := ts } := by
  cases r <;> rfl

/-- Decode of what Decode left answers the same (R110 (d)). -/
theorem decodeFrame_decodeFrame (c : Config) (f : Frame) (vs : VehicleState) :
    decodeFrame c f (decodeFrame c f vs).vs = decodeFrame c f vs := by
  obtain ⟨_, e⟩ | ⟨_, _, _, e⟩ | ⟨r, hr, happ, _, e⟩ := decodeFrame_cases c f vs <;> rw [e]
  · exact e
  · exact e
  · rw [decodeFrame_of_applies hr happ, r.write_write]

/-- Settles O20: the second Decode answers as the first, and the command's end writes the same again. -/
theorem decodingTwiceIsDecodingOnce : Obligations.DecodingTwiceIsDecodingOnce := by
  refine fun s => ⟨_, rfl, ?_⟩
  simp only [exec, execDecode, State.finish_vs, State.finish_frame, State.cfg, State.finish_build,
    decodeFrame_decodeFrame]
  rfl

end Sys2Proof.Machine
end

section
/-! The extractor, and the routines as its uses (40_decoder.md R119-R124). -/

namespace Sys2Proof.Machine

/-- An extract of a valid field answers its value (R122, R123). -/
theorem State.extract_valid {s : State} {start len : Nat} (h : s.frame.fieldValid start len = true)
    (v : Word) : s.extract start len v = s.finish v := if_pos h

/-- An extract of any other field answers 0 and EXT_INVALID (R122, R123). -/
theorem State.extract_invalid {s : State} {start len : Nat} (h : ¬ s.frame.fieldValid start len = true)
    (v : Word) : s.extract start len v = s.finishWith false true 0 := if_neg h

/-- Settles O22: a valid field has at most 32 bits, so its value fits RESULT. -/
theorem extractUnsignedGivesTheField : Obligations.ExtractUnsignedGivesTheField := by
  rintro c s start len w hc hstart hlen rfl
  have hdec : decode c = .extractU start len := decode_of_low_nibble (.extractU start len)
    ⟨hstart ▸ fstartField_eq c, hlen ▸ flenField_eq c⟩ hc
  rw [← Frame.word_eq_sum, ← Frame.fieldValid_iff, hdec]
  refine ⟨fun hv => ?_, fun hnv => congrArg Host.Outcome.next (State.extract_invalid hnv _)⟩
  obtain ⟨_, _, hle, _⟩ := (s.frame.fieldValid_iff start len).mp hv
  exact ⟨_, s.frame.extractU_toNat start hle, congrArg Host.Outcome.next (State.extract_valid hv _)⟩

/-- Settles O23: a valid field has 1 to 32 bits, so RESULT holds its two's-complement value. -/
theorem extractSignedGivesTheSignedField : Obligations.ExtractSignedGivesTheSignedField := by
  rintro c s start len w v hc hstart hlen rfl rfl
  have hdec : decode c = .extractS start len := decode_of_low_nibble (.extractS start len)
    ⟨hstart ▸ fstartField_eq c, hlen ▸ flenField_eq c⟩ hc
  rw [← Frame.word_eq_sum, ← Frame.fieldValid_iff, hdec]
  refine ⟨fun hv => ?_, fun hnv => congrArg Host.Outcome.next (State.extract_invalid hnv _)⟩
  obtain ⟨_, hpos, hle, _⟩ := (s.frame.fieldValid_iff start len).mp hv
  refine ⟨_, ?_, congrArg Host.Outcome.next (State.extract_valid hv _)⟩
  rw [Nat.testBit_eq_decide_div_mod_eq]
  simp only [decide_eq_true_eq]
  exact sext32_toInt hpos hle (s.frame.extractU_lt start len)

/-- Settles O24: bit j of a field is frame bit start + j, which is a bit of a byte. -/
theorem frameBitsAreByteBits : Obligations.FrameBitsAreByteBits := by
  refine fun f => ⟨f.word_eq_sum, fun k hk => f.word_bit hk, fun start len j hfield hj => ?_⟩
  rw [f.extractU_bit, f.word_bit (by omega), decide_eq_true hj, Bool.true_and]

/-- Bits j to j + len - 1 of byte o are the field of that length at frame bit 8o + j (R119, R124). -/
theorem Frame.byte_field_eq_extractU (f : Frame) {o j len : Nat} (ho : o < 8) (hj : j + len ≤ 8) :
    (f.byte o).toNat / 2 ^ j % 2 ^ len = f.extractU (8 * o + j) len := by
  apply Nat.eq_of_testBit_eq
  intro i
  rw [f.extractU_bit, Nat.testBit_mod_two_pow, Nat.testBit_div_two_pow]
  by_cases hi : i < len
  · have hbyte : (8 * o + j + i) / 8 = o := by omega
    have hbit : (8 * o + j + i) % 8 = i + j := by omega
    rw [f.word_bit (by omega), hbyte, hbit]
    rfl
  · simp only [hi, decide_false, Bool.false_and]

/-- A whole byte is the field of length 8 at its first bit (R124). -/
theorem Frame.byte_eq_extractU (f : Frame) {o : Nat} (ho : o < 8) :
    (f.byte o).toNat = f.extractU (8 * o) 8 := f.byte_toNat ho

/-- Bit 0 of a byte is the field of length 1 there (R124). -/
theorem Frame.byte_mod_two_eq_extractU (f : Frame) {o : Nat} (ho : o < 8) :
    (f.byte o).toNat % 2 = f.extractU (8 * o) 1 := by
  have hfield := f.byte_field_eq_extractU (j := 0) (len := 1) ho (by decide)
  rwa [Nat.pow_zero, Nat.div_one] at hfield

/-- Two bytes in a row, low byte first, are the field of length 16 at the first one's first bit (R124). -/
theorem Frame.raw16_eq_extractU (f : Frame) {o : Nat} (ho : o + 1 < 8) :
    f.raw16 o = f.extractU (8 * o) 16 := by
  have hhigh : f.word.toNat / 2 ^ (8 * (o + 1)) = f.word.toNat / 2 ^ (8 * o) / 2 ^ 8 := by
    rw [Nat.div_div_eq_div_mul, ← Nat.pow_add, Nat.mul_succ]
  rw [Frame.raw16, f.byte_toNat (by omega), f.byte_toNat ho, hhigh]
  exact (Nat.mod_mul (x := f.word.toNat / 2 ^ (8 * o)) (a := 2 ^ 8) (b := 2 ^ 8)).symm

/-- A routine applies exactly when its whole byte field is valid (R111, R120, R124). -/
theorem Routine.applies_eq_fieldValid (c : Config) (f : Frame) (r : Routine) :
    r.applies c f = f.fieldValid (8 * r.offset c) (8 * r.width) := by
  have hwidth : 1 ≤ r.width ∧ r.width ≤ 2 := by cases r <;> decide
  rw [Bool.eq_iff_iff, r.applies_iff, f.fieldValid_iff]
  omega

/-- Settles O25: each routine's bytes lie inside the frame in a legal build. -/
theorem routinesAreFixedExtracts : Obligations.RoutinesAreFixedExtracts := by
  intro b f _
  obtain ⟨_, _, _, _, _, _, _, _, hspeed, hrpm, hthrottle, hengine, hfault, _⟩ := b.property
  exact ⟨f.raw16_eq_extractU (by omega), f.raw16_eq_extractU (by omega),
    f.byte_eq_extractU (by omega), f.byte_mod_two_eq_extractU (by omega),
    f.byte_field_eq_extractU (j := 1) (len := 3) (by omega) (by decide),
    f.byte_mod_two_eq_extractU (by omega), Routine.applies_eq_fieldValid b.val f⟩

end Sys2Proof.Machine
end

section
/-! GET_STATE and DECODER_RESET (40_decoder.md R117, R118). -/

namespace Sys2Proof.Machine

/-- An extract leaves the snapshot (R122, R123). -/
@[simp] theorem State.extract_snap (s : State) (start len : Nat) (v : Word) :
    (s.extract start len v).snap = s.snap := by
  unfold State.extract
  split <;> rfl

/-- No command but GET_STATE and SOFT_RESET changes the snapshot (R117, R234). -/
theorem exec_keeps_snap {i : Instr} {s t : State} (he : exec i s = .next t) (hget : i ≠ .getState)
    (hsoft : i ≠ .softReset) : t.snap = s.snap := by
  cases i with
  | getState => exact absurd rfl hget
  | softReset => exact absurd rfl hsoft
  | frameCycle =>
    cases he
    obtain ⟨_, _, _, _, hsnap, _⟩ :=
      engineEval_frame { s with vs := (decodeFrame s.cfg s.frame s.vs).vs }
    exact hsnap
  | engineEval =>
    cases he
    obtain ⟨_, _, _, _, hsnap, _⟩ := engineEval_frame s
    exact hsnap
  | extractU start len => cases he; exact s.extract_snap start len _
  | extractS start len => cases he; exact s.extract_snap start len _
  | _ => cases he; rfl

/-- Settles O12: the snapshot registers show the copy of VS. -/
theorem getStateCopiesTheVehicleState : Obligations.GetStateCopiesTheVehicleState := by
  refine ⟨fun c s hc => ?_, fun i s t => exec_keeps_snap⟩
  rw [decode_of_low_nibble .getState trivial hc]
  exact ⟨_, rfl, readWord_offset _ .snapSpeedRpm, readWord_offset _ .snapMisc,
    readWord_offset _ .snapTs, rfl⟩

/-- Settles O13: with rpm 0 check 4 is negative. -/
theorem decoderResetZeroesOnlyTheVehicleState : Obligations.DecoderResetZeroesOnlyTheVehicleState := by
  intro c s hc
  rw [decode_of_low_nibble .decoderReset trivial hc]
  exact ⟨_, rfl, rfl, rfl⟩

end Sys2Proof.Machine
end

section
/-! Observe of a late, an on-time and an unknown ID, and TRACK_OBSERVE of each (41_tracker.md R150-R156). -/

namespace Sys2Proof.Machine

/-- The table after an on-time sighting of entry j (R153). -/
def FreqTable.refreshAt (t : FreqTable) (j : Fin 16) (now : Time) : FreqTable :=
  { t with entries := t.entries.set j (t.entries[j].refresh now) }

theorem FreqTable.refreshAt_same (t : FreqTable) (j : Fin 16) (now : Time) :
    (t.refreshAt j now).entries[j] = t.entries[j].refresh now := by
  rw [FreqTable.refreshAt, FreqTable.set_get, if_pos rfl]

theorem FreqTable.refreshAt_of_ne (t : FreqTable) {j k : Fin 16} (h : k ≠ j) (now : Time) :
    (t.refreshAt j now).entries[k] = t.entries[k] := by
  rw [FreqTable.refreshAt, FreqTable.set_get, if_neg h.symm]

section
variable {c : Config} {t : FreqTable} {id : CanId} {now : Time}

/-- Observe of a stored ID that is late (R152). -/
theorem observe_of_late {j : Fin 16} (hlook : t.lookup id = some j)
    (hlate : c.timeout < elapsed now t.entries[j].lastSeen) :
    observe c t id now = ⟨.flagged, false, t⟩ := by
  simp only [observe, hlook, hlate, if_true]

/-- Observe of a stored ID that is on time (R153). -/
theorem observe_of_onTime {j : Fin 16} (hlook : t.lookup id = some j)
    (htime : elapsed now t.entries[j].lastSeen ≤ c.timeout) :
    observe c t id now = ⟨.updated, false, t.refreshAt j now⟩ := by
  simp only [observe, hlook, if_neg (Nat.not_lt.mpr htime), FreqTable.refreshAt]

/-- Observe of an unknown ID with room in the table (R154). -/
theorem observe_of_room (hlook : t.lookup id = none) (hroom : t.count.toNat < c.ftCap) :
    observe c t id now = ⟨.registered, false, t.insert id now⟩ := by
  simp only [observe, hlook, hroom, if_true]

/-- Observe of an unknown ID with the table full (R154). -/
theorem observe_of_full (hlook : t.lookup id = none) (hfull : c.ftCap ≤ t.count.toNat) :
    observe c t id now = ⟨.registered, true, t⟩ := by
  simp only [observe, hlook, if_neg (Nat.not_lt.mpr hfull)]

end

section
variable {s : State} {code : ObserveCode} {untracked : Bool} {ft : FreqTable}
  (ho : s.observeFrame = ⟨code, untracked, ft⟩)
include ho

/-- TRACK_OBSERVE stores the table that Observe leaves and reports its answer in RESULT (R156). -/
theorem exec_trackObserve_of_observeFrame :
    exec .trackObserve s =
      .next ({ s with track := ft }.finish (trackResult untracked code.bits)) := by
  unfold State.observeFrame at ho
  simp only [exec, execTrackObserve, ho]

/-- The same for every word with TRACK_OBSERVE's opcode (R92). -/
theorem exec_trackObserve_word_of_observeFrame {c : Word} (hc : c &&& 0xF = 0x5) :
    exec (decode c) s =
      .next ({ s with track := ft }.finish (trackResult untracked code.bits)) := by
  rw [decode_of_low_nibble .trackObserve trivial hc]
  exact exec_trackObserve_of_observeFrame ho

end

/-- Settles O26: the staged ID's entry is the one Observe finds, and it is late. -/
theorem lateObserveFlagsAndChangesNothing : Obligations.LateObserveFlagsAndChangesNothing := by
  intro c s j hinv hc hj hid hlate
  have hlook := FreqTable.lookup_eq_some hinv hj hid
  exact exec_trackObserve_word_of_observeFrame (observe_of_late hlook hlate) hc

/-- Settles O27: the staged ID's entry is the one Observe finds and refreshes. -/
theorem onTimeObserveRefreshesTheEntry : Obligations.OnTimeObserveRefreshesTheEntry := by
  intro c s j hinv hc hj hid htime
  have hlook := FreqTable.lookup_eq_some hinv hj hid
  have hself := s.track.refreshAt_same j s.frame.ts
  refine ⟨s.track.refreshAt j s.frame.ts, rfl,
    fun k hk => s.track.refreshAt_of_ne hk s.frame.ts, ?_, ?_, ?_, ?_⟩
  · rw [hself]; exact hid
  · rw [hself]; rfl
  · rw [hself]; exact TrackEntry.refresh_count _ _
  · exact exec_trackObserve_word_of_observeFrame (observe_of_onTime hlook htime) hc

/-- Settles O28: Observe finds no entry; a legal P_FT_CAP is at most 16, so FT_COUNT + 1 fits its 5 bits. -/
theorem unknownIdIsRegisteredWhileThereIsRoom :
    Obligations.UnknownIdIsRegisteredWhileThereIsRoom := by
  intro c s hc hunknown
  have hlook := FreqTable.lookup_eq_none hunknown
  refine ⟨fun hroom => ?_, fun hfull =>
    exec_trackObserve_word_of_observeFrame (observe_of_full hlook hfull) hc⟩
  obtain ⟨_, _, _, ⟨_, hcap⟩, _⟩ := s.build.property
  refine ⟨_, FreqTable.insert_count (hroom.trans_le hcap) s.frame.id s.frame.ts, fun k => ?_,
    exec_trackObserve_word_of_observeFrame (observe_of_room hlook hroom) hc⟩
  simp only [FreqTable.insert_get, eq_comm]

end Sys2Proof.Machine
end

section
/-! A stored entry along a run (41_tracker.md R157). -/

namespace Sys2Proof.Machine

/-- What a step can do to FT: nothing, one Observe of the staged frame by the completing command, or the
empty table of a hardware reset or SOFT_RESET (R234, R270). -/
theorem step_track {s t : State} (hs : step s = .next t) :
    t.track = s.track ∨
    (∃ p, s.pending = some p ∧ t.pending = none ∧
      decode p.word ∈ [.trackObserve, .engineEval, .frameCycle] ∧ t.track = s.observeFrame.table) ∨
    (t.track = FreqTable.empty ∧ ((∃ rest, s.inputs = .hardwareReset :: rest) ∨
      ∃ p, s.pending = some p ∧ t.pending = none ∧ decode p.word = .softReset)) := by
  obtain ⟨rest, _, e⟩ | ⟨a, rest, _, e⟩ | ⟨c, rest, hmove, e⟩ | ⟨rest, hmove, e⟩ := step_cases s <;>
    rw [e] at hs
  · cases hs
    exact .inl rfl
  · cases hs
    obtain ⟨f, g, o, p, ans, hacc⟩ := hostAccess_frame { s with inputs := rest } a
    rw [hacc]
    exact .inl rfl
  · obtain ⟨p, hp, rfl⟩ := nextMove_complete hmove
    obtain ⟨u, hu, hdone⟩ := exec_completes (decode p.word) { s with inputs := rest }
    obtain rfl : u = t := Host.Outcome.next.inj (hu.symm.trans hs)
    obtain hkept | ⟨hobs, htable⟩ | ⟨hsoft, hempty⟩ := exec_track _ hs
    · exact .inl hkept
    · exact .inr (.inl ⟨p, hp, hdone.pending, hobs, htable⟩)
    · exact .inr (.inr ⟨hempty, .inr ⟨p, hp, hdone.pending, hsoft⟩⟩)
  · cases hs
    exact .inr (.inr ⟨rfl, .inl ⟨rest, nextMove_reset hmove⟩⟩)

/-- Every step keeps the table's invariant (R50 (b)-(d)). -/
theorem step_keeps_track_inv {s t : State} (hs : step s = .next t) (h : s.track.Inv s.cfg) :
    t.track.Inv t.cfg := by
  obtain ⟨hbuild, _⟩ := onlyDecodesAndResetsChangeTheVehicleState s t hs
  rw [State.cfg, hbuild]
  obtain e | ⟨_, _, _, _, e⟩ | ⟨e, _⟩ := step_track hs <;> rw [e]
  · exact h
  · exact observe_inv s.build h _ _
  · exact FreqTable.empty_inv _

/-- The table meets its invariant and holds the entry e at index j. -/
structure State.Stores (s : State) (j : Fin 16) (e : TrackEntry) : Prop where
  inv : s.track.Inv s.cfg
  stored : j.val < s.track.count.toNat
  entry : s.track.entries[j] = e

/-- A step from s to t in which no hardware reset arrives, no SOFT_RESET completes, and no command that
observes the ID of e completes on time for it (R157). -/
def SparesEntry (e : TrackEntry) (s t : State) : Prop :=
  step s = .next t ∧ (∀ rest, s.inputs ≠ .hardwareReset :: rest) ∧
    ∀ p, s.pending = some p → t.pending = none →
      decode p.word ≠ .softReset ∧
      (decode p.word ∈ [.trackObserve, .engineEval, .frameCycle] → s.frame.id = e.id →
        s.cfg.timeout < (s.frame.ts - e.lastSeen).toNat)

/-- Such a step keeps the entry (R152-R154, R157). -/
theorem SparesEntry.stores {e : TrackEntry} {s t : State} {j : Fin 16} (hstep : SparesEntry e s t)
    (h : s.Stores j e) : t.Stores j e := by
  obtain ⟨hs, hnoReset, hcommand⟩ := hstep
  obtain ⟨hinv, hj, rfl⟩ := h
  obtain hkept | ⟨p, hp, hidle, hobs, htable⟩ | ⟨_, ⟨rest, hreset⟩ | ⟨p, hp, hidle, hsoft⟩⟩ :=
    step_track hs
  · exact ⟨step_keeps_track_inv hs hinv, hkept ▸ hj, by rw [hkept]⟩
  · obtain ⟨_, hlate⟩ := hcommand p hp hidle
    obtain ⟨hentry, hstored⟩ := observe_entry s.build hj s.frame.id s.frame.ts (hlate hobs)
    exact ⟨step_keeps_track_inv hs hinv, htable ▸ hstored, by rw [htable]; exact hentry⟩
  · exact absurd hreset (hnoReset rest)
  · obtain ⟨hnoSoft, _⟩ := hcommand p hp hidle
    exact absurd hsoft hnoSoft

/-- And so does a run of such steps. -/
theorem run_stores {r : Nat → State} {j : Fin 16} {e : TrackEntry} {n : Nat}
    (hrun : ∀ k, k < n → SparesEntry e (r k) (r (k + 1))) (h : (r 0).Stores j e) :
    (r n).Stores j e := by
  induction n with
  | zero => exact h
  | succ n ih =>
    have hn : (r n).Stores j e := ih fun k hk => hrun k (Nat.lt_succ_of_lt hk)
    exact (hrun n (Nat.lt_succ_self n)).stores hn

/-- A late Observe of the staged frame, when its ID is stored (R152). -/
theorem State.Stores.observeFrame_of_late {s : State} {j : Fin 16} {e : TrackEntry} (h : s.Stores j e)
    (hid : s.frame.id = e.id) (hlate : s.cfg.timeout < (s.frame.ts - e.lastSeen).toNat) :
    s.observeFrame = ⟨.flagged, false, s.track⟩ := by
  obtain ⟨hinv, hj, rfl⟩ := h
  exact observe_of_late (FreqTable.lookup_eq_some hinv hj hid.symm) hlate

/-- A cycle with checks 1 and 2 negative and a flagged Observe records CAN_FREQUENCY (R195). -/
theorem engineEval_of_observeFrame_flagged {s : State} (hspike : s.rpmSpike = false)
    (hspeed : s.speedExceed = false) {untracked : Bool} {ft : FreqTable}
    (ho : s.observeFrame = ⟨.flagged, untracked, ft⟩) :
    s.engineEval = { s with track := ft }.flag .canFrequency := by
  obtain ⟨hpos, _⟩ | ⟨_, hpos, _⟩ | ⟨_, _, _, e⟩ | ⟨_, _, hcode, _⟩ := engineEval_cases s
  · exact absurd hpos (Bool.eq_false_iff.mp hspike)
  · exact absurd hpos (Bool.eq_false_iff.mp hspeed)
  · rw [e, ho]
  · exact absurd (congrArg Observation.code ho) hcode

/-- Settles O29: the entry is stored wherever the run stands, so a late Observe of its ID finds it. -/
theorem flaggedEntryStaysFlagged : Obligations.FlaggedEntryStaysFlagged := by
  intro r n j e hinv hj he hrun
  have hstores : (r n).Stores j e := run_stores hrun ⟨hinv, hj, he⟩
  refine ⟨hstores.entry, fun hid hlate => ?_⟩
  have ho := hstores.observeFrame_of_late hid hlate
  refine ⟨⟨_, exec_trackObserve_of_observeFrame ho, rfl, rfl⟩, fun hspike hspeed => ?_⟩
  have hcycle := engineEval_of_observeFrame_flagged hspike hspeed ho
  refine ⟨_, rfl, ?_, ?_⟩ <;> rw [hcycle] <;> rfl

end Sys2Proof.Machine
end

section
/-! The integer test of Evaluate against the three-sigma test in real numbers (42_statistics.md R173-R176). -/

namespace Sys2Proof.Machine

/-- The mean of a list of real numbers, 0 for the empty one (R174). -/
noncomputable def popMean (xs : List ℝ) : ℝ := xs.sum / xs.length

/-- The population variance of a list of real numbers, 0 for the empty one (R174). -/
noncomputable def popVariance (xs : List ℝ) : ℝ :=
  (xs.map (fun x => (x - popMean xs) ^ 2)).sum / xs.length

/-- The held rpm values as real numbers, newest first (R173, R174). -/
noncomputable def History.rpms (c : Config) (h : History) : List ℝ :=
  (h.held c).map (fun x => (x.rpm.toNat : ℝ))

theorem sum_map_sub_sq (xs : List ℝ) (m : ℝ) :
    (xs.map (fun x => (x - m) ^ 2)).sum =
      (xs.map (fun x => x * x)).sum - 2 * m * xs.sum + xs.length * m ^ 2 := by
  induction xs with
  | nil => simp
  | cons x xs ih =>
    simp only [List.map_cons, List.sum_cons, List.length_cons, ih]
    push_cast
    ring

theorem length_mul_popMean (xs : List ℝ) : xs.length * popMean xs = xs.sum :=
  mul_div_cancel_of_imp' fun h => by
    rw [List.length_eq_zero_iff.mp (Nat.cast_eq_zero.mp h), List.sum_nil]

theorem popVariance_nonneg (xs : List ℝ) : 0 ≤ popVariance xs :=
  div_nonneg (List.sum_nonneg (List.forall_mem_map.mpr fun _ _ => sq_nonneg _)) (Nat.cast_nonneg _)

/-- n times the sum of the squares, less the square of the sum, is n^2 times the variance (R176). -/
theorem length_sq_mul_popVariance (xs : List ℝ) :
    xs.length ^ 2 * popVariance xs = xs.length * (xs.map (fun x => x * x)).sum - xs.sum * xs.sum := by
  have hmean := length_mul_popMean xs
  have hvar : xs.length * popVariance xs = (xs.map (fun x => (x - popMean xs) ^ 2)).sum :=
    mul_div_cancel_of_imp' fun h => by
      rw [List.length_eq_zero_iff.mp (Nat.cast_eq_zero.mp h), List.map_nil, List.sum_nil]
  rw [sq, mul_assoc, hvar, sum_map_sub_sq, ← hmean]
  ring

/-- A constant list's values do not vary. -/
theorem popVariance_replicate (n : ℕ) (a : ℝ) : popVariance (List.replicate n a) = 0 := by
  have hD := length_sq_mul_popVariance (List.replicate n a)
  simp only [List.map_replicate, List.sum_replicate, List.length_replicate, nsmul_eq_mul] at hD
  have hprod : (n : ℝ) ^ 2 * popVariance (List.replicate n a) = 0 := by
    rw [hD]
    ring
  cases n with
  | zero => simp [popVariance]
  | succ n => exact (mul_eq_zero.mp hprod).resolve_left (by positivity)

/-- The variance is 0 only for a constant list (R176). -/
theorem popVariance_eq_zero_iff (xs : List ℝ) :
    popVariance xs = 0 ↔ ∀ x ∈ xs, ∀ y ∈ xs, x = y := by
  constructor
  · intro hvar x hx y hy
    have hlen : (xs.length : ℝ) ≠ 0 := Nat.cast_ne_zero.mpr (List.length_pos_of_mem hx).ne'
    have hsum : (xs.map (fun x => (x - popMean xs) ^ 2)).sum = 0 :=
      (div_eq_zero_iff.mp hvar).resolve_right hlen
    have hmean : ∀ z ∈ xs, z = popMean xs := fun z hz => by
      have hsq := List.all_zero_of_le_zero_le_of_sum_eq_zero
        (List.forall_mem_map.mpr fun _ _ => sq_nonneg _) hsum (List.mem_map_of_mem hz)
      exact sub_eq_zero.mp (pow_eq_zero_iff two_ne_zero |>.mp hsq)
    rw [hmean x hx, hmean y hy]
  · intro heq
    cases xs with
    | nil => exact popVariance_replicate 0 0
    | cons a as =>
      have hrep : a :: as = List.replicate (a :: as).length a :=
        List.eq_replicate_iff.mpr ⟨rfl, fun y hy => heq y hy a List.mem_cons_self⟩
      rw [hrep, popVariance_replicate]

/-- A deviation d of more than k standard deviations, without the square root (R176). -/
theorem mul_sqrt_lt_abs_iff {k v d : ℝ} (hk : 0 ≤ k) (hv : 0 ≤ v) :
    k * √v < |d| ↔ k * k * v < d * d := by
  rw [← sq_lt_sq₀ (mul_nonneg hk (Real.sqrt_nonneg v)) (abs_nonneg d), mul_pow, Real.sq_sqrt hv,
    sq_abs, sq, sq]

section
variable (c : Config) (h : History)

theorem History.rpms_length : (h.rpms c).length = h.n := by
  rw [History.rpms, List.length_map, History.held_length, History.n]

theorem History.rpms_sum : (h.rpms c).sum = h.sumRpm c := by
  rw [History.sumRpm, Nat.cast_list_sum, List.map_map]
  rfl

theorem History.rpms_sum_sq : ((h.rpms c).map (fun x => x * x)).sum = h.sumSqRpm c := by
  rw [History.sumSqRpm, Nat.cast_list_sum, List.map_map, History.rpms, List.map_map]
  simp only [Function.comp_def, Nat.cast_mul]

/-- D is n^2 times the variance (R176). -/
theorem History.spread_eq_popVariance :
    (h.spread c : ℝ) = (h.n : ℝ) ^ 2 * popVariance (h.rpms c) := by
  rw [← History.rpms_length c, length_sq_mul_popVariance, History.rpms_sum, History.rpms_sum_sq,
    History.rpms_length, History.spread]
  push_cast
  rfl

/-- E is n times the candidate's distance from the mean (R176). -/
theorem History.deviation_eq_popMean (candidate : BitVec 16) :
    (h.deviation c candidate : ℝ) = h.n * (candidate.toNat - popMean (h.rpms c)) := by
  rw [mul_sub, ← History.rpms_length c, length_mul_popMean, History.rpms_sum, History.rpms_length,
    History.deviation]
  push_cast
  rfl

theorem History.spread_nonneg : 0 ≤ h.spread c := by
  have hreal : (0 : ℝ) ≤ h.spread c := by
    rw [History.spread_eq_popVariance]
    exact mul_nonneg (sq_nonneg _) (popVariance_nonneg _)
  exact_mod_cast hreal

/-- D is 0 exactly when the variance is; both are 0 for the empty buffer (R176). -/
theorem History.spread_eq_zero_iff : h.spread c = 0 ↔ popVariance (h.rpms c) = 0 := by
  rw [← Int.cast_eq_zero (α := ℝ), History.spread_eq_popVariance, mul_eq_zero,
    pow_eq_zero_iff two_ne_zero]
  refine or_iff_right_of_imp fun hn => ?_
  rw [popVariance, History.rpms_length, hn, div_zero]

/-- Evaluate flags exactly when the source's test in real numbers does (R174, R176). -/
theorem evaluate_flagged_iff_real (hmin : 1 ≤ c.minSamples) (candidate : BitVec 16) :
    (evaluate c h candidate).flagged = true ↔
      c.minSamples ≤ (h.rpms c).length ∧ 0 < √(popVariance (h.rpms c)) ∧
        (c.sigma : ℝ) * √(popVariance (h.rpms c)) < |(candidate.toNat : ℝ) - popMean (h.rpms c)| := by
  have hvar := popVariance_nonneg (h.rpms c)
  rw [evaluate_flagged_iff, History.rpms_length]
  refine and_congr_right fun hn => and_congr ?_ ?_
  · rw [Ne, History.spread_eq_zero_iff, Real.sqrt_pos, hvar.lt_iff_ne, ne_comm]
  · have hpos : (0 : ℝ) < (h.n : ℝ) ^ 2 := pow_pos (Nat.cast_pos.mpr (hmin.trans hn)) 2
    have hD : (c.sigma : ℝ) * c.sigma * h.spread c =
        (h.n : ℝ) ^ 2 * (c.sigma * c.sigma * popVariance (h.rpms c)) := by
      rw [History.spread_eq_popVariance]
      ring
    have hE : (h.deviation c candidate : ℝ) * h.deviation c candidate = (h.n : ℝ) ^ 2 *
        ((candidate.toNat - popMean (h.rpms c)) * (candidate.toNat - popMean (h.rpms c))) := by
      rw [History.deviation_eq_popMean]
      ring
    rw [mul_sqrt_lt_abs_iff (Nat.cast_nonneg _) hvar, ← mul_lt_mul_iff_of_pos_left hpos, ← hD, ← hE]
    norm_cast

end

/-- ARG_RPM as a number (R30). -/
theorem State.argRpm_toNat (s : State) : s.argRpm.toNat = s.arg0.toNat % 65536 :=
  extractLow_toNat s.arg0 16

/-- Settles O34: D is n^2 times the variance and E is n times the candidate's distance from the mean, and a
legal P_MIN_SAMPLES is at least 1. -/
theorem integerTestIsTheRealThreeSigmaTest : Obligations.IntegerTestIsTheRealThreeSigmaTest := by
  rintro s _ _ _ _ rfl rfl rfl rfl
  obtain ⟨_, _, ⟨hmin, _⟩, _⟩ := s.build.property
  refine ⟨⟨_, rfl, ?_⟩, s.hist.spread_nonneg s.cfg, ?_⟩
  · rw [State.finish_result, statResult_flagged, ← s.argRpm_toNat]
    exact evaluate_flagged_iff_real s.cfg s.hist hmin s.argRpm
  · exact (s.hist.spread_eq_zero_iff s.cfg).trans (popVariance_eq_zero_iff _)

end Sys2Proof.Machine
end

section
/-! HIST_RECORD, the history after a sequence of Records, and HIST_EVALUATE (42_statistics.md R170-R179). -/

namespace Sys2Proof.Machine

/-- Settles O30: the buffer is the one Record leaves. -/
theorem histRecordAppendsTheSample : Obligations.HistRecordAppendsTheSample := by
  intro c s hc
  refine ⟨s.hist.record s.cfg ⟨s.argRpm, s.argSpeed, s.frame.ts⟩, fun i => ?_,
    History.record_head s.build _ _, History.record_count s.build _ _, ?_⟩
  · rw [History.record_get]
    simp only [eq_comm]
    rfl
  · rw [decode_of_low_nibble .histRecord trivial hc]
    rfl

/-- The buffer after Records of the samples xs, oldest first, from the empty one (R171). -/
def recordAll (b : Build) (xs : List Sample) : History :=
  xs.foldl (fun h x => h.record b.val x) History.empty

theorem recordAll_append_singleton (b : Build) (xs : List Sample) (x : Sample) :
    recordAll b (xs ++ [x]) = (recordAll b xs).record b.val x :=
  List.foldl_concat ..

/-- A sequence of Records keeps the ring buffer's invariant (R50 (a)). -/
theorem recordAll_inv (b : Build) (xs : List Sample) : (recordAll b xs).Inv b.val := by
  induction xs using List.reverseRecOn with
  | nil => exact History.empty_inv b
  | append_singleton xs x ih =>
    rw [recordAll_append_singleton]
    exact History.record_inv b ih x

/-- The held samples are the last P_HIST_CAP recorded, newest first (R171). -/
theorem recordAll_held (b : Build) (xs : List Sample) :
    (recordAll b xs).held b.val = xs.reverse.take b.val.histCap := by
  induction xs using List.reverseRecOn with
  | nil =>
    rw [List.reverse_nil, List.take_nil]
    rfl
  | append_singleton xs x ih =>
    obtain ⟨_, ⟨hcap, _⟩, _⟩ := b.property
    obtain ⟨m, hm⟩ := Nat.exists_eq_add_of_le' hcap
    rw [recordAll_append_singleton, History.record_held b (recordAll_inv b xs), ih,
      List.reverse_concat, hm, List.take_succ_cons, List.take_succ_cons, List.take_take,
      Nat.min_eq_left m.le_succ]

/-- Settles O31: HIST_COUNT is the number of held samples. -/
theorem historyIsFirstInFirstOut : Obligations.HistoryIsFirstInFirstOut := by
  intro b xs
  have hheld := recordAll_held b xs
  refine ⟨hheld, ?_⟩
  calc (recordAll b xs).count.toNat = (xs.reverse.take b.val.histCap).length := by
        rw [← hheld, History.held_length]
    _ = min xs.length b.val.histCap := by
        rw [List.length_take, List.length_reverse, Nat.min_comm]

/-- HIST_EVALUATE reports Evaluate's answer in RESULT and changes nothing else (R178, R179). -/
theorem exec_histEvaluate_word_of_evaluate {c : Word} {s : State} {flagged few zero : Bool}
    (hc : c &&& 0xF = 0x7) (ho : evaluate s.cfg s.hist s.argRpm = ⟨flagged, few, zero⟩) :
    exec (decode c) s = .next (s.finish (statResult zero few flagged)) := by
  rw [decode_of_low_nibble .histEvaluate trivial hc]
  simp only [exec, execHistEvaluate, ho]

/-- Settles O33: RESULT for each answer of Evaluate, whose D and E are the statement's. -/
theorem histEvaluateIsTheIntegerTest : Obligations.HistEvaluateIsTheIntegerTest := by
  rintro c s _ _ _ D E hc rfl rfl rfl hD hE
  replace hD : D = s.hist.spread s.cfg := hD
  replace hE : E = s.hist.deviation s.cfg s.argRpm := by
    rw [hE, ← s.argRpm_toNat]
    rfl
  rw [← History.n]
  obtain ⟨hfew, ho⟩ | ⟨hmany, hzero, ho⟩ | ⟨hmany, hpos, ho⟩ :=
    evaluate_cases s.cfg s.hist s.argRpm
  · exact ⟨2, exec_histEvaluate_word_of_evaluate hc ho, fun _ => rfl, fun _ => by omega,
      fun _ => by omega, fun _ => by omega⟩
  · rw [← hD] at hzero
    exact ⟨4, exec_histEvaluate_word_of_evaluate hc ho, fun _ => by omega, fun _ _ => rfl,
      fun _ hne => absurd hzero hne, fun _ hne => absurd hzero hne⟩
  · rw [← hD] at hpos
    rw [← hD, ← hE] at ho
    refine ⟨_, exec_histEvaluate_word_of_evaluate hc ho, fun _ => by omega,
      fun _ hzero => absurd hzero hpos, fun _ _ htest => ?_, fun _ _ htest => ?_⟩
    · rw [decide_eq_true htest]
      rfl
    · rw [decide_eq_false (not_lt.mpr htest)]
      rfl

end Sys2Proof.Machine
end

section
/-! ENGINE_EVAL by its first positive check, and the unflagged outcome (43_engine.md R192-R200, R208). -/

namespace Sys2Proof.Machine

theorem AnomalyType.code_injective : Function.Injective AnomalyType.code := by
  intro j k
  cases j <;> cases k <;> decide

theorem AnomalyType.code_ne_zero (k : AnomalyType) : k.code ≠ 0 := by
  cases k <;> decide

/-- Whether the check that records the variant k is positive on s; no check records MISSING_MESSAGE
(R158, R193-R197). -/
def State.check (s : State) : AnomalyType → Bool
  | .rpmSpike => s.rpmSpike
  | .speedExceed => s.speedExceed
  | .canFrequency => decide (s.observeFrame.code = .flagged)
  | .engineInconsistency => s.engineInconsistent
  | .statisticalDeviation => s.statDeviates
  | .missingMessage => false

/-- A cycle records the variant of a positive check, or no anomaly (R198, R199). -/
theorem engineEval_type_cases (s : State) :
    (∃ k, s.check k = true ∧ s.engineEval.anomaly.type = k.code) ∨ s.engineEval.anomaly.type = 0 := by
  obtain ⟨h, e⟩ | ⟨_, h, e⟩ | ⟨_, _, h, e⟩ | ⟨_, _, _, e⟩ := engineEval_cases s <;> rw [e]
  · exact .inl ⟨.rpmSpike, h, rfl⟩
  · exact .inl ⟨.speedExceed, h, rfl⟩
  · exact .inl ⟨.canFrequency, decide_eq_true h, rfl⟩
  · obtain ⟨h, e⟩ | ⟨_, h, e⟩ | ⟨_, _, e⟩ :=
      evalAfterObserve_cases { s with track := s.observeFrame.table } <;> rw [e]
    · exact .inl ⟨.engineInconsistency, h, rfl⟩
    · exact .inl ⟨.statisticalDeviation, h, rfl⟩
    · exact .inr rfl

/-- The check of the recorded variant is positive (R192). -/
theorem check_of_engineEval_type {s : State} {k : AnomalyType} (h : s.engineEval.anomaly.type = k.code) :
    s.check k = true := by
  obtain ⟨j, hj, htype⟩ | hzero := engineEval_type_cases s
  · obtain rfl : j = k := AnomalyType.code_injective (htype.symm.trans h)
    exact hj
  · exact absurd (h.symm.trans hzero) k.code_ne_zero

/-- A cycle whose check for k is negative records another type (R192). -/
theorem engineEval_type_ne {s : State} {k : AnomalyType} (h : s.check k = false) :
    s.engineEval.anomaly.type ≠ k.code :=
  fun htype => Bool.eq_false_iff.mp h (check_of_engineEval_type htype)

/-- Only a cycle that records no anomaly writes the baseline (R199, R200). -/
theorem engineEval_baseline (s : State) :
    s.engineEval.baseline = s.baseline ∨ s.engineEval.anomaly.has = false := by
  obtain ⟨ft, _, ⟨k, _, e⟩ | e⟩ := engineEval_outcome s <;> rw [e]
  · exact .inl rfl
  · exact .inr rfl

/-- ENGINE_EVAL, by any word with its opcode, is a cycle and its summary in RESULT (R92, R204). -/
theorem exec_engineEval_word {c : Word} (hc : c &&& 0xF = 0xA) (s : State) :
    exec (decode c) s = .next (s.engineEval.finish (cycleResult 0 s.engineEval.anomaly)) := by
  rw [decode_of_low_nibble .engineEval trivial hc]
  rfl

/-- The same, for a cycle that records the variant k: RESULT depends on k alone (R198, R203). -/
theorem exec_engineEval_of_flag {c : Word} (hc : c &&& 0xF = 0xA) {s t : State} {k : AnomalyType} {r : Word}
    (h : s.engineEval = t.flag k) (hr : cycleResult 0 ⟨true, k.code, k.severity, 0, 0⟩ = r) :
    exec (decode c) s = .next ((t.flag k).finish r) := by
  rw [exec_engineEval_word hc, h, cycleResult_flag, hr]

/-- The same, for a cycle that records no anomaly (R199, R203). -/
theorem exec_engineEval_of_unflagged {c : Word} (hc : c &&& 0xF = 0xA) {s t : State}
    (h : s.engineEval = t.unflagged) : exec (decode c) s = .next (t.unflagged.finish 0) := by
  have hr : cycleResult 0 Anomaly.none = 0 := by decide
  rw [exec_engineEval_word hc, h, State.unflagged_anomaly, hr]

/-- Checks 4 and 5 and the unflagged outcome leave FT (R200). -/
@[simp] theorem evalAfterObserve_track (s : State) : s.evalAfterObserve.track = s.track := by
  obtain ⟨_, e⟩ | ⟨_, _, e⟩ | ⟨_, _, e⟩ := evalAfterObserve_cases s <;> rw [e] <;> rfl

section
variable {s : State}

/-- A cycle with check 1 positive (R193). -/
theorem engineEval_of_rpmSpike (hspike : s.rpmSpike = true) : s.engineEval = s.flag .rpmSpike :=
  if_pos hspike

/-- A cycle whose first positive check is the second (R194). -/
theorem engineEval_of_speedExceed (hspike : s.rpmSpike = false) (hspeed : s.speedExceed = true) :
    s.engineEval = s.flag .speedExceed :=
  (if_neg (Bool.eq_false_iff.mp hspike)).trans (if_pos hspeed)

/-- The rest of a cycle whose first positive check is the fourth (R196). -/
theorem evalAfterObserve_of_engineInconsistent (hoff : s.engineInconsistent = true) :
    s.evalAfterObserve = s.flag .engineInconsistency :=
  if_pos hoff

/-- The rest of a cycle whose first positive check is the fifth (R197). -/
theorem evalAfterObserve_of_statDeviates (hoff : s.engineInconsistent = false)
    (hstat : s.statDeviates = true) : s.evalAfterObserve = s.flag .statisticalDeviation :=
  (if_neg (Bool.eq_false_iff.mp hoff)).trans (if_pos hstat)

/-- The rest of a cycle with every check negative (R199). -/
theorem evalAfterObserve_of_not_statDeviates (hoff : s.engineInconsistent = false)
    (hstat : s.statDeviates = false) : s.evalAfterObserve = s.unflagged :=
  (if_neg (Bool.eq_false_iff.mp hoff)).trans (if_neg (Bool.eq_false_iff.mp hstat))

/-- A cycle with checks 1 to 3 negative goes on with the table that Observe leaves (R195). -/
theorem engineEval_of_observeFrame_not_flagged (hspike : s.rpmSpike = false)
    (hspeed : s.speedExceed = false) (hcode : s.observeFrame.code ≠ .flagged) :
    s.engineEval = { s with track := s.observeFrame.table }.evalAfterObserve :=
  (if_neg (Bool.eq_false_iff.mp hspike)).trans
    ((if_neg (Bool.eq_false_iff.mp hspeed)).trans (if_neg hcode))

end

/-- Observe leaves an ID untracked only with the answer Registered (R154, R155). -/
theorem observeFrame_code_of_untracked {s : State} (h : s.observeFrame.untracked = true) :
    s.observeFrame.code = .registered := by
  obtain ⟨_, _, _, e⟩ | ⟨_, _, _, e⟩ | ⟨_, _, e⟩ | ⟨_, _, e⟩ :=
    observe_cases s.cfg s.track s.frame.id s.frame.ts
  · rw [State.observeFrame, e] at h
    cases h
  · rw [State.observeFrame, e] at h
    cases h
  · rw [State.observeFrame, e]
  · rw [State.observeFrame, e]

/-- What TRACK_OBSERVE shows of Observe: the table it leaves, and whether it flags (R156). -/
theorem exec_trackObserve_shows_observeFrame {s o : State} (h : exec .trackObserve s = .next o) :
    o.track = s.observeFrame.table ∧ (o.result = 2 ↔ s.observeFrame.code = .flagged) := by
  cases h
  exact ⟨rfl, trackResult_eq_two _ _ observeFrame_code_of_untracked⟩

/-- Settles O35: check 1 is the first, so it alone decides. -/
theorem rpmSpikeIsTheFirstCheck : Obligations.RpmSpikeIsTheFirstCheck := by
  intro c s hc
  rw [← rpmSpike_iff, Bool.not_eq_true]
  exact ⟨fun hspike => exec_engineEval_of_flag hc (engineEval_of_rpmSpike hspike) (by decide),
    fun hspike => ⟨_, exec_engineEval_word hc s, engineEval_type_ne (k := .rpmSpike) hspike,
      (engineEval_baseline s).resolve_left⟩⟩

/-- Settles O36: with check 1 negative, check 2 decides. -/
theorem speedExceedIsTheSecondCheck : Obligations.SpeedExceedIsTheSecondCheck := by
  intro c s hc hspike
  rw [← speedExceed_iff, ← not_lt, ← speedExceed_iff, Bool.not_eq_true]
  exact ⟨fun hspeed => exec_engineEval_of_flag hc (engineEval_of_speedExceed hspike hspeed) (by decide),
    fun hspeed => ⟨_, exec_engineEval_word hc s, engineEval_type_ne (k := .speedExceed) hspeed⟩⟩

/-- Settles O37: TRACK_OBSERVE shows the same Observe that check 3 runs. -/
theorem canFrequencyIsTheThirdCheck : Obligations.CanFrequencyIsTheThirdCheck := by
  intro c s o hc hspike hspeed ho
  obtain ⟨htable, hflagged⟩ := exec_trackObserve_shows_observeFrame ho
  rw [Ne, hflagged, htable]
  refine ⟨fun hcode => ?_, fun hcode => ⟨_, exec_engineEval_word hc s, ?_,
    engineEval_type_ne (k := .canFrequency) (decide_eq_false hcode)⟩⟩
  · have hobs : s.observeFrame = ⟨.flagged, s.observeFrame.untracked, s.observeFrame.table⟩ := by
      rw [← hcode]
    exact exec_engineEval_of_flag hc (engineEval_of_observeFrame_flagged hspike hspeed hobs) (by decide)
  · rw [State.finish_track, engineEval_of_observeFrame_not_flagged hspike hspeed hcode,
      evalAfterObserve_track]

/-- Settles O38: check 4 runs on the state with Observe's table. -/
theorem engineInconsistencyIsTheFourthCheck : Obligations.EngineInconsistencyIsTheFourthCheck := by
  intro c s o hc hspike hspeed ho hresult
  obtain ⟨htable, hflagged⟩ := exec_trackObserve_shows_observeFrame ho
  have hcycle := engineEval_of_observeFrame_not_flagged hspike hspeed (mt hflagged.mpr hresult)
  rw [← engineInconsistent_iff, Bool.not_eq_true, htable]
  exact ⟨fun hoff => exec_engineEval_of_flag hc
      (hcycle.trans (evalAfterObserve_of_engineInconsistent hoff)) (by decide),
    fun hoff => ⟨_, exec_engineEval_word hc s, engineEval_type_ne (k := .engineInconsistency) hoff⟩⟩

/-- The halves of an ARG0 put together from a speed and an rpm (R30). -/
theorem arg0_append_halves (s : State) (speed rpm : BitVec 16) :
    ({ s with arg0 := speed ++ rpm } : State).argRpm = rpm ∧
      ({ s with arg0 := speed ++ rpm } : State).argSpeed = speed :=
  ⟨BitVec.extractLsb'_append_eq_right, BitVec.extractLsb'_append_eq_left⟩

/-- RESULT of HIST_EVALUATE with FLAGGED as its only bit (R178). -/
theorem statResult_eq_one_iff (flagged : Bool) : statResult false false flagged = 1 ↔ flagged = true := by
  cases flagged <;> decide

/-- RESULT of HIST_EVALUATE is 1 exactly when Evaluate flags (R175, R178). -/
theorem exec_histEvaluate_result_eq_one_iff {s e : State} (h : exec .histEvaluate s = .next e) :
    e.result = 1 ↔ (evaluate s.cfg s.hist s.argRpm).flagged = true := by
  cases h
  rw [State.finish_result]
  obtain ⟨_, ho⟩ | ⟨_, _, ho⟩ | ⟨_, _, ho⟩ := evaluate_cases s.cfg s.hist s.argRpm
  · rw [ho]
    decide
  · rw [ho]
    decide
  · rw [ho]
    exact statResult_eq_one_iff _

/-- Settles O39: with ARG_RPM = VS.rpm, HIST_EVALUATE runs check 5's Evaluate and HIST_RECORD the unflagged
outcome's Record. -/
theorem fifthCheckAndTheUnflaggedOutcome : Obligations.FifthCheckAndTheUnflaggedOutcome := by
  intro c s o e r hc hspike hspeed ho hresult hoff he hr
  obtain ⟨htable, hflagged⟩ := exec_trackObserve_shows_observeFrame ho
  have hcycle := engineEval_of_observeFrame_not_flagged hspike hspeed (mt hflagged.mpr hresult)
  obtain ⟨hrpm, hspd⟩ := arg0_append_halves s s.vs.speed s.vs.rpm
  have hdeviates : e.result = 1 ↔ s.statDeviates = true := by
    rw [exec_histEvaluate_result_eq_one_iff he, hrpm]
    rfl
  have hrecord : r.hist = s.hist.record s.cfg ⟨s.vs.rpm, s.vs.speed, s.frame.ts⟩ := by
    cases hr
    rw [State.finish_hist, hrpm, hspd]
  rw [Ne, hdeviates, Bool.not_eq_true, htable, hrecord]
  exact ⟨fun hstat => exec_engineEval_of_flag hc
      (hcycle.trans (evalAfterObserve_of_statDeviates hoff hstat)) (by decide),
    fun hstat => exec_engineEval_of_unflagged hc
      (hcycle.trans (evalAfterObserve_of_not_statDeviates hoff hstat))⟩

/-- Settles O43: the first cycle left the baseline, so check 1 is positive again. -/
theorem staleBaselineRepeatsTheSpike : Obligations.StaleBaselineRepeatsTheSpike := by
  intro s t v f ht htype hfar
  cases ht
  have hspike : s.rpmSpike = true := check_of_engineEval_type (k := .rpmSpike) htype
  obtain ⟨hvalid, _⟩ := (rpmSpike_iff s).mp hspike
  rw [engineEval_of_rpmSpike hspike]
  have hagain := engineEval_of_rpmSpike ((rpmSpike_iff
    { (s.flag .rpmSpike).finish (cycleResult 0 (s.flag .rpmSpike).anomaly) with vs := v, frame := f }).mpr
      ⟨hvalid, hfar⟩)
  refine ⟨_, rfl, ?_, ?_, ?_⟩ <;> rw [hagain] <;> rfl

end Sys2Proof.Machine
end

section
/-! What a cycle owes to the decode step and to the earlier record, and its RESULT (43_engine.md R191, R203,
R205). -/

namespace Sys2Proof.Machine

/-- A cycle on s as the end of a command, with the decode bits d in RESULT (R203). -/
def State.finishCycle (s : State) (d : BitVec 3) : State :=
  s.engineEval.finish (cycleResult d s.engineEval.anomaly)

theorem exec_engineEval_eq_finishCycle (s : State) : exec .engineEval s = .next (s.finishCycle 0) := rfl

theorem exec_frameCycle_eq_finishCycle (s : State) :
    exec .frameCycle s = .next ({ s with vs := (decodeFrame s.cfg s.frame s.vs).vs }.finishCycle
      (decodeFrame s.cfg s.frame s.vs).bits) := rfl

/-- A cycle's end depends on nothing that the end of the command before it writes, nor on the record
(R191). -/
theorem State.finishCycle_after_command (s : State) (p : Option Pending) (illegal invalid : Bool) (r : Word)
    (a : Anomaly) (d : BitVec 3) :
    ({ s with
        pending := p, status := ⟨illegal, s.status.overrun, invalid⟩, result := r
        anomaly := a } : State).finishCycle d = s.finishCycle d := by
  have hcycle := engineEval_indep s s.frame.data0 s.frame.data1 s.arg0 r
    ⟨illegal, s.status.overrun, invalid⟩ s.snap a p s.inputs s.answers
  obtain ⟨ft, an, h, b, e⟩ := engineEval_writes s
  rw [e] at hcycle
  rw [State.finishCycle, State.finishCycle, hcycle, e]
  rfl

/-- The decode bits are all that a cycle's end adds for them (R203, R205). -/
theorem State.finishCycle_eq_or (s : State) (d : BitVec 3) :
    s.finishCycle d =
      { s.finishCycle 0 with result := (s.finishCycle 0).result ||| decodeResult d <<< 16 } := by
  rw [State.finishCycle, cycleResult_or]
  rfl

/-- Settles O40: DECODE's end writes only what a cycle does not look at. -/
theorem frameCycleIsDecodeThenEngineEval : Obligations.FrameCycleIsDecodeThenEngineEval := by
  intro c s hc
  refine ⟨_, _, rfl, exec_engineEval_eq_finishCycle _, ?_⟩
  rw [decode_of_low_nibble .frameCycle trivial hc, exec_frameCycle_eq_finishCycle, State.finishCycle_eq_or]
  have hdecoded := State.finishCycle_after_command { s with vs := (decodeFrame s.cfg s.frame s.vs).vs } none
    false false (decodeResult (decodeFrame s.cfg s.frame s.vs).bits) s.anomaly 0
  exact congrArg (fun e : State => Host.Outcome.next { e with
    result := e.result ||| decodeResult (decodeFrame s.cfg s.frame s.vs).bits <<< 16 }) hdecoded.symm

/-- Settles O42: both commands are the end of a cycle, which does not depend on the record or RESULT. -/
theorem noEarlierAnomalySurvivesACycle : Obligations.NoEarlierAnomalySurvivesACycle := by
  intro s a r
  have hcycle (v : VehicleState) (d : BitVec 3) :=
    State.finishCycle_after_command { s with vs := v } s.pending s.status.cmdIllegal s.status.extInvalid r a d
  exact ⟨⟨_, exec_engineEval_eq_finishCycle s, congrArg Host.Outcome.next (hcycle s.vs 0)⟩,
    _, exec_frameCycle_eq_finishCycle s, congrArg Host.Outcome.next (hcycle _ _)⟩

/-- Bits [10:0] of a cycle's RESULT are ANOM_STATUS's, once the record is written (R203). -/
theorem cycleResult_low_eq_readWord (d : BitVec 3) (s : State) :
    cycleResult d s.anomaly &&& 0x7FF = s.readWord 0x030 &&& 0x7FF :=
  (cycleResult_low d s.anomaly).trans
    (congrArg (· &&& 0x7FF) (readWord_offset s .anomStatus).symm)

/-- Settles O41: RESULT is the cycle's summary word, with DECODE's own bits for FRAME_CYCLE. -/
theorem cycleResultSummarisesTheRecord : Obligations.CycleResultSummarisesTheRecord := by
  intro s d t u hd ht hu
  cases hd
  cases ht
  cases hu
  refine ⟨?_, rfl, cycleResult_low_eq_readWord _ _, cycleResult_low_eq_readWord 0 _⟩
  rw [State.finish_result, State.finish_result, decodeResult_bits]
  rfl

end Sys2Proof.Machine
end

section
/-! NOP, SOFT_RESET, and which commands write which element (44_control.md R230, R232, R234). -/

namespace Sys2Proof.Machine

/-- An extract is no more than the end of a command, whatever RESULT and EXT_INVALID come to (R122, R123). -/
theorem State.extract_finishWith (s : State) (start len : Nat) (v : Word) :
    ∃ invalid r, s.extract start len v = s.finishWith false invalid r := by
  unfold State.extract
  split
  · exact ⟨_, _, rfl⟩
  · exact ⟨_, _, rfl⟩

/-- No command but a cycle and SOFT_RESET changes the record or the baseline (R234). -/
theorem exec_keeps_record {i : Instr} {s t : State} (he : exec i s = .next t)
    (hi : i ∉ [.frameCycle, .engineEval, .softReset]) :
    t.anomaly = s.anomaly ∧ t.baseline = s.baseline := by
  cases i with
  | frameCycle | engineEval | softReset => simp at hi
  | extractU start len | extractS start len =>
    cases he
    obtain ⟨_, _, e⟩ := s.extract_finishWith start len _
    rw [e]
    exact ⟨rfl, rfl⟩
  | _ => cases he; exact ⟨rfl, rfl⟩

/-- No command but a cycle, HIST_RECORD and SOFT_RESET changes HIST (R234). -/
theorem exec_keeps_hist {i : Instr} {s t : State} (he : exec i s = .next t)
    (hi : i ∉ [.frameCycle, .engineEval, .histRecord, .softReset]) : t.hist = s.hist := by
  cases i with
  | frameCycle | engineEval | histRecord | softReset => simp at hi
  | extractU start len | extractS start len =>
    cases he
    obtain ⟨_, _, e⟩ := s.extract_finishWith start len _
    rw [e]
    rfl
  | _ => cases he; rfl

/-- No command but a cycle, TRACK_OBSERVE and SOFT_RESET changes FT (R234). -/
theorem exec_keeps_track {i : Instr} {s t : State} (he : exec i s = .next t)
    (hi : i ∉ [.frameCycle, .engineEval, .trackObserve, .softReset]) : t.track = s.track := by
  have hnamed : [Instr.trackObserve, .engineEval, .frameCycle] ⊆
      [.frameCycle, .engineEval, .trackObserve, .softReset] := by decide
  obtain hkept | ⟨hobserve, _⟩ | ⟨rfl, _⟩ := exec_track i he
  · exact hkept
  · exact absurd (hnamed hobserve) hi
  · simp at hi

/-- No command but FRAME_CYCLE, DECODE and the two resets changes VS (R22, R234). -/
theorem exec_keeps_vs {i : Instr} {s t : State} (he : exec i s = .next t)
    (hi : i ∉ [.frameCycle, .decode, .decoderReset, .softReset]) : t.vs = s.vs := by
  obtain hkept | ⟨rfl | rfl, _⟩ | ⟨rfl | rfl, _⟩ := exec_vs i he
  · exact hkept
  all_goals simp at hi

/-- Settles O44: each element is kept by every command that is not named for it. -/
theorem onlyNamedCommandsWriteEachElement : Obligations.OnlyNamedCommandsWriteEachElement := by
  intro i s
  obtain ⟨t, he, hc⟩ := exec_completes i s
  refine ⟨t, he, fun hne => by_contra fun hi => ?_, fun hne => by_contra fun hi => ?_,
    fun hne => by_contra fun hi => ?_, fun hne => by_contra fun hi => ?_,
    fun hne => by_contra fun hi => ?_, ?_, hc.frame, hc.arg0⟩
  · obtain ⟨hanomaly, hbaseline⟩ := exec_keeps_record he hi
    exact hne.elim (· hanomaly) (· hbaseline)
  · exact hne (exec_keeps_hist he hi)
  · exact hne (exec_keeps_track he hi)
  · exact hne (exec_keeps_vs he hi)
  · obtain ⟨hget, hsoft⟩ : i ≠ .getState ∧ i ≠ .softReset := by simpa using hi
    exact hne (exec_keeps_snap he hget hsoft)
  · rintro rfl
    cases he
    exact ⟨rfl, rfl, rfl, rfl, rfl, rfl⟩

/-- Settles O9: NOP is the end of a command with RESULT 0. -/
theorem nopClearsTheCommandBits : Obligations.NopClearsTheCommandBits := by
  intro c s hc
  rw [decode_of_low_nibble .nop trivial hc]
  rfl

/-- Settles O11: the buffer and the table are the empty ones. -/
theorem softResetKeepsInputsAndOverrun : Obligations.SoftResetKeepsInputsAndOverrun := by
  intro c s hc
  rw [decode_of_low_nibble .softReset trivial hc]
  exact ⟨_, rfl, rfl, rfl, rfl, rfl, rfl, rfl, rfl, History.empty_slots, rfl, rfl,
    FreqTable.empty_entries, rfl, rfl, rfl, rfl, rfl, rfl⟩

end Sys2Proof.Machine
end

section
/-! The end of a busy window (10_state.md R51, 70_reset_and_hazards.md R270, R290). -/

namespace Sys2Proof.Machine

/-- The state with a command word still pending, after accesses that landed in its busy window: of the
block, only OVERRUN and the count of landed accesses differ (R75, R76). -/
def State.laterBusy (s : State) (c : Word) (landed : Nat) (overrun : Bool) (now : List Input)
    (ans : List Word) : State :=
  { s with
    status := { s.status with overrun := overrun }, pending := some ⟨c, landed⟩
    inputs := now, answers := ans }

theorem State.laterBusy_self {s : State} {p : Pending} (hp : s.pending = some p) :
    s.laterBusy p.word p.landed s.status.overrun s.inputs s.answers = s := by
  rw [State.laterBusy, ← hp]

/-- The next step ends the busy window of a command word: it is the word's completion, or the hardware
reset that abandons it. -/
def State.EndsWindow (s : State) (c : Word) : Prop :=
  (∃ rest, step s = exec (decode c) { s with inputs := rest }) ∨ ∃ rest, s.inputs = .hardwareReset :: rest

/-- A run of at most m steps comes to the end of the busy window, with the word still pending until then. -/
def State.ReachesWindowEnd (s : State) (c : Word) (m : Nat) : Prop :=
  ∃ k landed overrun now ans, k ≤ m ∧ now <:+ s.inputs ∧
    (s.laterBusy c landed overrun now ans).EndsWindow c ∧
    ∀ n, Sys2Proof.core.run (n + k) s = Sys2Proof.core.run n (s.laterBusy c landed overrun now ans)

/-- A busy block's next step ends the window, or lands an access that the latency still leaves room for
(R51, R290). -/
theorem endsWindow_or_access {s : State} {p : Pending} (hp : s.pending = some p) :
    s.EndsWindow p.word ∨ ∃ a rest, s.inputs = .access a :: rest ∧ p.landed < s.cfg.cmdLatency := by
  match hi : s.inputs with
  | [] => exact .inl (.inl ⟨_, step_of_nextMove_complete (nextMove_complete_of_nil hp hi)⟩)
  | .hardwareReset :: rest => exact .inl (.inr ⟨rest, hi⟩)
  | .latencyElapsed :: rest => exact .inl (.inl ⟨rest, step_latencyElapsed hp hi⟩)
  | .access a :: rest =>
    obtain hroom | hfull := Nat.lt_or_ge p.landed s.cfg.cmdLatency
    · exact .inr ⟨a, rest, rfl, hroom⟩
    · exact .inl (.inl ⟨_, step_of_nextMove_complete (nextMove_complete_of_landed hp hi hfull)⟩)

/-- An access that lands in the busy window can only set OVERRUN and answer a read (R73, R75, R76). -/
theorem hostAccess_busy {s : State} {p : Pending} (hp : s.pending = some p) (a : Access) :
    ∃ overrun ans, s.hostAccess a = s.laterBusy p.word (p.landed + 1) overrun s.inputs ans := by
  cases a with
  | read off size => exact ⟨s.status.overrun, _, hostAccess_read_busy hp off size⟩
  | write off size v =>
    cases hs : supported off size with
    | false =>
      have hcount := hostAccess_write_unsupported hs (s := s) v
      rw [hp] at hcount
      exact ⟨s.status.overrun, s.answers, hcount⟩
    | true => exact ⟨true, s.answers, hostAccess_write_busy hp hs v⟩

/-- A window that the next step ends is at its end after no step. -/
theorem State.EndsWindow.reaches {s : State} {p : Pending} (hp : s.pending = some p)
    (h : s.EndsWindow p.word) (m : Nat) : s.ReachesWindowEnd p.word m := by
  refine ⟨0, p.landed, s.status.overrun, s.inputs, s.answers, Nat.zero_le m, List.suffix_rfl, ?_⟩
  rw [State.laterBusy_self hp]
  exact ⟨h, fun _ => rfl⟩

/-- An access that lands is one step on the way to the window's end. -/
theorem State.ReachesWindowEnd.of_access {s : State} {c : Word} {m landed : Nat} {o : Bool} {i : Input}
    {rest : List Input} {as : List Word} (hi : s.inputs = i :: rest)
    (hstep : step s = .next (s.laterBusy c landed o rest as))
    (h : (s.laterBusy c landed o rest as).ReachesWindowEnd c m) : s.ReachesWindowEnd c (m + 1) := by
  obtain ⟨k, landed, overrun, now, ans, hk, hsuffix, hend, hrun⟩ := h
  have hnow : now <:+ s.inputs := hi ▸ hsuffix.trans (List.suffix_cons i rest)
  exact ⟨k + 1, landed, overrun, now, ans, Nat.succ_le_succ hk, hnow, hend,
    fun n => (run_succ hstep (n + k)).trans (hrun n)⟩

/-- When the latency has room for at most m more accesses, the window's end is at most m steps away (R290). -/
theorem reachesWindowEnd (m : Nat) {s : State} {p : Pending} (hp : s.pending = some p)
    (hm : s.cfg.cmdLatency ≤ p.landed + m) : s.ReachesWindowEnd p.word m := by
  induction m generalizing s p with
  | zero =>
    obtain hend | ⟨_, _, _, hroom⟩ := endsWindow_or_access hp
    · exact hend.reaches hp 0
    · exact absurd hm (Nat.not_le.mpr hroom)
  | succ m ih =>
    obtain hend | ⟨a, rest, hi, hroom⟩ := endsWindow_or_access hp
    · exact hend.reaches hp (m + 1)
    · obtain ⟨o, as, hacc⟩ := hostAccess_busy (s := { s with inputs := rest }) hp a
      have hstep : step s = .next (s.laterBusy p.word (p.landed + 1) o rest as) :=
        (step_access_busy hp hroom hi).trans (congrArg _ hacc)
      have hroom' : s.cfg.cmdLatency ≤ p.landed + 1 + m := by omega
      exact .of_access hi hstep (ih (p := ⟨p.word, p.landed + 1⟩) rfl hroom')

/-- The step that ends a busy window leaves the block idle (R231, R270). -/
theorem State.EndsWindow.step_idle {s : State} {c : Word} (h : s.EndsWindow c) :
    ∃ t, step s = .next t ∧ t.pending = none := by
  obtain ⟨rest, hstep⟩ | ⟨rest, hi⟩ := h
  · obtain ⟨t, ht, hdone⟩ := exec_completes (decode c) { s with inputs := rest }
    exact ⟨t, hstep.trans ht, hdone.pending⟩
  · exact ⟨_, step_hardwareReset hi, State.hardwareReset_pending _⟩

/-- Settles O57: at most P_CMD_LATENCY landed accesses lead to the end of the busy window, and the next step
is that end, which is the completion unless a hardware reset is among the inputs. -/
theorem busyEndsWithinTheLatency : Obligations.BusyEndsWithinTheLatency := by
  refine ⟨fun s p hp hreset => ?_, fun s hbusy => ?_⟩
  · obtain ⟨k, landed, overrun, now, ans, hk, hsuffix, hend, hrun⟩ :=
      reachesWindowEnd s.cfg.cmdLatency hp (Nat.le_add_left _ _)
    have hnoReset : ¬ ∃ rest, now = .hardwareReset :: rest := fun ⟨_, hi⟩ =>
      hreset (hsuffix.subset (hi ▸ List.mem_cons_self))
    obtain ⟨rest, hstep⟩ := hend.resolve_right hnoReset
    exact ⟨k, landed, overrun, now, rest, ans, _, hk, Nat.zero_add k ▸ hrun 0, rfl, hstep⟩
  · obtain ⟨p, hp⟩ := Option.isSome_iff_exists.mp hbusy
    obtain ⟨k, landed, overrun, now, ans, hk, _, hend, hrun⟩ :=
      reachesWindowEnd s.cfg.cmdLatency hp (Nat.le_add_left _ _)
    obtain ⟨t, hstep, hidle⟩ := hend.step_idle
    exact ⟨1 + k, t, by omega, (hrun 1).trans (run_succ hstep 0), hidle⟩

end Sys2Proof.Machine
end

section
/-! Steps without a fault and without an error (44_control.md R233, 60_exceptions.md R250, 20_memory.md R76). -/

namespace Sys2Proof.Machine

/-- Settles O46: of the four kinds of step only a completion could stop, and every command completes. -/
theorem nothingStopsTheBlock : Obligations.NothingStopsTheBlock := by
  intro s
  obtain ⟨rest, _, e⟩ | ⟨a, rest, _, e⟩ | ⟨c, rest, _, e⟩ | ⟨rest, _, e⟩ := step_cases s
  · exact ⟨_, e⟩
  · exact ⟨_, e⟩
  · obtain ⟨t, ht, _⟩ := exec_completes (decode c) { s with inputs := rest }
    exact ⟨t, e.trans ht⟩
  · exact ⟨_, e⟩

/-- Settles O52: the access lands in the busy window, where a supported write only sets OVERRUN. -/
theorem writeWhileBusyOnlySetsOverrun : Obligations.WriteWhileBusyOnlySetsOverrun :=
  fun _ _ off _ _ hp hmod hlt hl hi => step_write_busy hp hl ((supported_iff off 4).mpr ⟨rfl, hmod, hlt⟩) hi

/-- Settles O10: the low nibble selects one of four commands with the same effect. -/
theorem reservedOpcodesReportIllegal : Obligations.ReservedOpcodesReportIllegal := by
  rintro c s (hc | hc | hc | hc)
  · rw [decode_of_low_nibble .reservedB trivial hc]; rfl
  · rw [decode_of_low_nibble .reservedC trivial hc]; rfl
  · rw [decode_of_low_nibble .reservedD trivial hc]; rfl
  · rw [decode_of_low_nibble .reservedE trivial hc]; rfl

/-- A completing command is no violation exactly when it sets neither CMD_ILLEGAL nor EXT_INVALID (R120,
R233). -/
theorem commandViolation_eq_none_iff (s : State) (c : Word) :
    s.commandViolation c = none ↔
      illegalAfter (decode c) = false ∧ invalidAfter s.frame (decode c) = false := by
  unfold State.commandViolation
  cases decode c <;> simp [illegalAfter, invalidAfter]

/-- A write is no violation exactly when it is supported and reaches an idle block (R73, R76). -/
theorem accessViolation_write_eq_none_iff (s : State) (off size : Nat) (v : Word) :
    s.accessViolation (.write off size v) = none ↔ supported off size = true ∧ s.pending = none := by
  cases hs : supported off size with
  | false => simp [State.accessViolation, hs]
  | true => cases hp : s.pending <;> simp [State.accessViolation, State.busy, hs, hp]

@[simp] theorem State.countLanding_status (s : State) (before : Option Pending) :
    (s.countLanding before).status = s.status := by
  cases before <;> rfl

/-- An idle write can clear OVERRUN and changes no other stored bit of STATUS (R32, R77). -/
theorem writeIdle_status_cases (s : State) (off : Nat) (v : Word) :
    (s.writeIdle off v).status = s.status ∨
      (s.writeIdle off v).status = { s.status with overrun := false } := by
  obtain ⟨_, e⟩ | ⟨_, e⟩ | e | e | e := writeIdle_cases s off v <;> rw [e]
  · exact .inl rfl
  · exact .inl rfl
  · exact .inl rfl
  · exact .inr rfl
  · exact .inl rfl

/-- A host access that is no violation sets no error bit (R75-R77). -/
theorem hostAccess_keeps_no_error {s : State} {a : Access} (hviol : s.accessViolation a = none)
    (hst : s.status = ⟨false, false, false⟩) : (s.hostAccess a).status = ⟨false, false, false⟩ := by
  cases a with
  | read off size => exact (State.countLanding_status _ s.pending).trans hst
  | write off size v =>
    obtain ⟨hs, hp⟩ := (accessViolation_write_eq_none_iff s off size v).mp hviol
    rw [hostAccess_write_idle hp hs]
    obtain e | e := writeIdle_status_cases s off v <;> rw [e, hst]

/-- A command that is no violation sets no error bit (R231). -/
theorem exec_keeps_no_error {s t : State} {c : Word} (hviol : s.commandViolation c = none)
    (hst : s.status = ⟨false, false, false⟩) (he : exec (decode c) s = .next t) :
    t.status = ⟨false, false, false⟩ := by
  obtain ⟨hillegal, hinvalid⟩ := (commandViolation_eq_none_iff s c).mp hviol
  rw [exec_status _ he, hillegal, hinvalid, hst]

theorem violation_of_nextMove_access {s : State} {a : Access} {rest : List Input}
    (h : s.nextMove = .access a rest) : s.violation = s.accessViolation a := by
  simp only [State.violation, h]

theorem violation_of_nextMove_complete {s : State} {c : Word} {rest : List Input}
    (h : s.nextMove = .complete c rest) : s.violation = s.commandViolation c := by
  simp only [State.violation, h]

/-- Settles O50: an access and a command that are no violation set no error bit, the idle step keeps STATUS
and a reset clears it. -/
theorem stepsWithoutViolationSetNoErrorBit : Obligations.StepsWithoutViolationSetNoErrorBit := by
  intro s t hviol hst hs
  obtain ⟨rest, _, e⟩ | ⟨a, rest, hmove, e⟩ | ⟨c, rest, hmove, e⟩ | ⟨rest, _, e⟩ := step_cases s <;>
    rw [e] at hs
  · cases hs
    exact hst
  · cases hs
    have hnone : s.accessViolation a = none := (violation_of_nextMove_access hmove).symm.trans hviol
    exact hostAccess_keeps_no_error (s := { s with inputs := rest }) hnone hst
  · have hnone : s.commandViolation c = none := (violation_of_nextMove_complete hmove).symm.trans hviol
    exact exec_keeps_no_error (s := { s with inputs := rest }) hnone hst hs
  · cases hs
    rfl

end Sys2Proof.Machine
end
